-- ==== Sys2Proof/Word.lean ====
section
/-! DEFINITION. The values that cross the block's boundary (spec/00_scope.md R8, R9): unsigned binary integers on a
fixed number of parallel lines, bit `i` of weight `2^i`. -/

namespace Sys2Proof

/-- A value on `n` parallel lines (spec/20_memory.md R31). -/
abbrev Word (n : Nat) := BitVec n

/-- A character code on `m` parallel lines, `m = CHAR_W` (spec/00_scope.md R6). -/
abbrev CharCode (m : Nat) := BitVec m

end Sys2Proof
end

