-- ==== Sys2Proof/Config.lean ====
section
/-! DEFINITION. The constants of a build (spec/00_scope.md R5 to R7): the decode-target word width `W`, the letter
width `CHAR_W`, and the number of blocks a platform builds. -/

namespace Sys2Proof

/-- The decode-target word width `W` (spec/00_scope.md R5).  Any other width is not a configuration of this block
(spec/93_implementation_defined.md U2), so there is no other constructor. -/
inductive WordWidth where
  | w32
  | w64
  | w128
  deriving DecidableEq, Repr

/-- `W` as a number. -/
def WordWidth.bits : WordWidth → Nat
  | .w32 => 32
  | .w64 => 64
  | .w128 => 128

/-- One build of the block: `W` and `CHAR_W`, with `CHAR_W >= 7` (spec/00_scope.md R5, R6).  They are constants of
the build and no request changes them (spec/70_reset_and_hazards.md R94). -/
structure Build where
  width : WordWidth
  charW : Nat
  charW_ge : 7 ≤ charW
  deriving DecidableEq, Repr

/-- `W` (spec/00_scope.md R5). -/
abbrev Build.wordBits (b : Build) : Nat := b.width.bits

/-- `REQ_W = W + CHAR_W + 2` (spec/30_encoding.md R42). -/
abbrev Build.reqBits (b : Build) : Nat := b.wordBits + b.charW + 2

/-- `RSP_W = W + 2` (spec/30_encoding.md R44). -/
abbrev Build.rspBits (b : Build) : Nat := b.wordBits + 2

/-- The build the opcode table is written for: `W = 32`, `CHAR_W = 8` (spec/opcode_table.json, encoding_note).
`CHAR_W = 8` is the spec's default; `W` has none.  DESIGN CHOICE, log entry 1. -/
def Build.default : Build := ⟨.w32, 8, by decide⟩

/-- `N_INST`, the number of independent blocks of a platform; default 1 (spec/00_scope.md R7). -/
def Config.defaultInstances : Nat := 1

end Sys2Proof
end

