-- ==== Sys2Proof/Syntax.lean ====
section
/-! DEFINITION. The block's four requests (spec/30_encoding.md R42, R43; spec/opcode_table.json). -/

namespace Sys2Proof

/-- A request with its ignored fields removed (spec/30_encoding.md R42 allows this form).  An operand is the unsigned
number its lines carry; how many lines there are depends on the build, and `Instr.wf` checks the operand against it. -/
inductive Instr where
  /-- CAPTURE `raw`: construct a view from a raw value (spec/40_view_extractor.md R59). -/
  | capture (raw : Nat)
  /-- BITS: return the raw bits of the view (spec/40_view_extractor.md R63). -/
  | bits
  /-- WIDTH: decode the native-width field (spec/41_width_decoder.md R65). -/
  | width
  /-- HASEXT `letter`: test the extension bit of a letter (spec/42_bit_test_mux.md R70). -/
  | hasext (letter : Nat)
  deriving DecidableEq, Repr

/-- The operation select (spec/30_encoding.md R43). -/
inductive Op where
  | capture
  | bits
  | width
  | hasext
  deriving DecidableEq, Repr

/-- The operation a request asks for. -/
def Instr.op : Instr → Op
  | .capture _ => .capture
  | .bits => .bits
  | .width => .width
  | .hasext _ => .hasext

end Sys2Proof
end

