-- ==== Sys2Proof/WellFormed.lean ====
section
/-! DEFINITION. When a request fits the request port of a build (spec/30_encoding.md R42). -/

namespace Sys2Proof

/-- The operand fits its field: `raw` is exactly `W` bits wide (spec/20_memory.md R34) and the letter is presented in
full in `CHAR_W` bits (spec/70_reset_and_hazards.md R102). -/
def Instr.wf (b : Build) : Instr → Bool
  | .capture raw => decide (raw < 2 ^ b.wordBits)
  | .bits => true
  | .width => true
  | .hasext letter => decide (letter < 2 ^ b.charW)

end Sys2Proof
end

