-- ==== Sys2Proof/Decode.lean ====
section
/-! DEFINITION. From a request word to a request and back (spec/30_encoding.md R42, R43, R49). -/

namespace Sys2Proof

/-- `v[lo+len-1:lo]` (spec/00_scope.md R8). -/
def slice {n : Nat} (v : Word n) (lo len : Nat) : BitVec len := v.extractLsb' lo len

/-- `req.op`, bits `[1:0]` (spec/30_encoding.md R42). -/
def reqOp {b : Build} (q : Word b.reqBits) : BitVec 2 := slice q 0 2

/-- `req.letter`, bits `[CHAR_W+1:2]` (spec/30_encoding.md R42). -/
def reqLetter {b : Build} (q : Word b.reqBits) : CharCode b.charW := slice q 2 b.charW

/-- `req.raw`, bits `[W+CHAR_W+1:CHAR_W+2]` (spec/30_encoding.md R42). -/
def reqRaw {b : Build} (q : Word b.reqBits) : Word b.wordBits := slice q (b.charW + 2) b.wordBits

/-- The number of an operation (spec/30_encoding.md R43). -/
def Op.code : Op → BitVec 2
  | .capture => 0#2
  | .bits => 1#2
  | .width => 2#2
  | .hasext => 3#2

/-- The operation of a number; all four are assigned (spec/30_encoding.md R43, R56). -/
def Op.ofCode (c : BitVec 2) : Op :=
  if c = 0#2 then .capture
  else if c = 1#2 then .bits
  else if c = 2#2 then .width
  else .hasext

/-- The request a request word stands for.  Every bit pattern is a legal request (spec/30_encoding.md R41, R56), and
the fields an operation does not use are ignored (R49). -/
def decodeWord (b : Build) (q : Word b.reqBits) : Instr :=
  match Op.ofCode (reqOp q) with
  | .capture => .capture (reqRaw q).toNat
  | .bits => .bits
  | .width => .width
  | .hasext => .hasext (reqLetter q).toNat

/-- Why a number is no request word of a build. -/
inductive DecodeReject where
  /-- The number needs more lines than the request port has.  DESIGN CHOICE, log entry 9. -/
  | wordTooWide
  deriving DecidableEq, Repr

/-- The request a number stands for, where the number fits the `REQ_W` lines of the request port. -/
def decodeNat (b : Build) (w : Nat) : Except DecodeReject Instr :=
  if w < 2 ^ b.reqBits then .ok (decodeWord b (BitVec.ofNat b.reqBits w)) else .error .wordTooWide

/-- The request the decoder of the default build reads from the low `nbits` bits of `w`, every higher bit being 0.  A
request word has one word and no bytes (spec/20_memory.md R31), so its bits are numbered as the opcode table numbers
them. -/
def decodeTableWord (nbits w : Nat) : Option Instr :=
  match decodeNat Build.default (w % 2 ^ nbits) with
  | .ok i => some i
  | .error _ => none

/-- `{raw, letter, op}` (spec/30_encoding.md R42). -/
def packRequest (b : Build) (raw : Word b.wordBits) (letter : CharCode b.charW) (op : BitVec 2) : Word b.reqBits :=
  raw ++ letter ++ op

/-- The canonical request word: ignored fields zero (spec/30_encoding.md R49). -/
def encode (b : Build) : Instr → Word b.reqBits
  | .capture raw => packRequest b (BitVec.ofNat b.wordBits raw) 0 Op.capture.code
  | .bits => packRequest b 0 0 Op.bits.code
  | .width => packRequest b 0 0 Op.width.code
  | .hasext letter => packRequest b 0 (BitVec.ofNat b.charW letter) Op.hasext.code

/-- The mnemonic of an operation (spec/30_encoding.md R43). -/
def Op.mnemonic : Op → String
  | .capture => "CAPTURE"
  | .bits => "BITS"
  | .width => "WIDTH"
  | .hasext => "HASEXT"

/-- BITS, WIDTH and HASEXT: the requests that ask about the view (spec/20_memory.md R36). -/
def Op.isQuery : Op → Bool
  | .capture => false
  | .bits => true
  | .width => true
  | .hasext => true

/-- A row of the opcode table: a mnemonic with its match and mask (spec/30_encoding.md R43, spec/opcode_table.json). -/
structure OpcodeRow where
  op : Op
  matchBits : Nat
  maskBits : Nat
  deriving DecidableEq, Repr

/-- The opcode table (spec/30_encoding.md R43). -/
def opcodeRows : List OpcodeRow :=
  [⟨.capture, 0x0, 0x3⟩, ⟨.bits, 0x1, 0x3⟩, ⟨.width, 0x2, 0x3⟩, ⟨.hasext, 0x3, 0x3⟩]

/-- A request word `q` selects the row for which `(q & mask) == match` (spec/30_encoding.md R43). -/
def OpcodeRow.selects (r : OpcodeRow) (q : Nat) : Bool := q &&& r.maskBits == r.matchBits

end Sys2Proof
end

