-- ==== Sys2Proof/Machine/State.lean ====
section
/-! DEFINITION. The block's state as plain data (spec/10_state.md), the answers it gives (spec/30_encoding.md R44 to
R48), and the reasons a step can stop. -/

namespace Sys2Proof.Machine

/-- The view slot `VIEW` (spec/10_state.md R13).  The payload exists in PRESENT only. -/
inductive View (n : Nat) where
  /-- No CAPTURE has completed since reset. -/
  | empty
  /-- The last CAPTURE was given zero: the register does not exist on this platform. -/
  | absent
  /-- The last CAPTURE was given the nonzero value `bits`. -/
  | present (bits : Word n)
  /-- `Fatal(WidthFieldZero)` was raised since reset. -/
  | halted
  deriving DecidableEq, Repr

/-- The class a native-width field names (spec/10_state.md R20, spec/30_encoding.md R47). -/
inductive WidthClass where
  | bits32
  | bits64
  | bits128
  deriving DecidableEq, Repr

/-- The causes of the block's one exception (spec/60_exceptions.md R77, R78). -/
inductive FatalCause where
  | widthFieldZero
  deriving DecidableEq, Repr

/-- The status codes of a response (spec/30_encoding.md R45). -/
inductive Status where
  | ok
  | noView
  | fatal
  deriving DecidableEq, Repr

/-- The answer to one request, as a sum: only an OK answer has data (spec/30_encoding.md R46). -/
inductive Response (n : Nat) where
  | ok (data : Word n)
  | noView
  | fatal
  deriving DecidableEq, Repr

/-- What the host does to the block: present a request word (spec/30_encoding.md R41, R42), or assert and release
reset between two requests (spec/70_reset_and_hazards.md R93). -/
inductive HostEvent (n : Nat) where
  | request (word : Word n)
  | reset
  deriving DecidableEq, Repr

/-- The machine.  `view` is the block's one piece of state (spec/10_state.md R13) and `rsp` its response port (R27;
the answer of the last step, log entry 3).  `build` holds the constants of the build (spec/00_scope.md R5, R6; log
entry 1) and `events` what the host will do next, oldest first (spec/20_memory.md R35; log entry 2). -/
structure State where
  build : Build
  view : View build.wordBits
  rsp : Option (Response build.wordBits)
  events : List (HostEvent build.reqBits)
  deriving DecidableEq, Repr

/-- Why a step ends in a fault: never.  The block's one exception has an entry that the spec describes
(spec/60_exceptions.md R79), so it is taken as a next state, and nothing else can go wrong inside the block (R77).
Log entry 7.  Safe: a type with no value lets nothing be proved of a run that stops. -/
inductive Fault where
  deriving DecidableEq, Repr

/-- Why an instruction has no meaning at a state. -/
inductive Refusal where
  /-- Raised by `exec` for an instruction without a meaning; no arm answers it.  Safe. -/
  | notModelled (mnemonic : String)
  /-- Raised by CAPTURE and HASEXT for an operand that does not fit the build's request port, which no request word
  carries (spec/20_memory.md R34, spec/70_reset_and_hazards.md R102).  No step raises it.  Safe.  DESIGN CHOICE, log
  entry 8. -/
  | operandTooWide
  deriving DecidableEq, Repr

/-- A build of the block right after reset (spec/10_state.md R27): the slot is EMPTY, no response is pending, and the
host has presented nothing. -/
def State.resetOf (b : Build) : State :=
  { build := b, view := .empty, rsp := none, events := [] }

/-- The default build right after reset (log entries 1 and 6). -/
def State.reset : State := State.resetOf Build.default

end Sys2Proof.Machine
end

