-- ==== Sys2Proof/Machine/Operands.lean ====
section
/-! DEFINITION. Operand decode (spec/30_encoding.md R50 to R53) and the codes of results and responses (R44 to R48). -/

namespace Sys2Proof.Machine

/-- `zext_n(v)` (spec/00_scope.md R10 (f)). -/
def zext {m : Nat} (n : Nat) (v : BitVec m) : Word n := v.setWidth n

/-- The width field `bits[W-1:W-2]` (spec/30_encoding.md R50, spec/41_width_decoder.md R67). -/
def widthField {n : Nat} (bits : Word n) : BitVec 2 := slice bits (n - 2) 2

/-- The class a width field names; field 0 names none (spec/10_state.md R20). -/
def WidthClass.ofField (f : BitVec 2) : Option WidthClass :=
  if f = 1#2 then some .bits32
  else if f = 2#2 then some .bits64
  else if f = 3#2 then some .bits128
  else none

/-- The 2-bit WidthClass code of a response (spec/30_encoding.md R47). -/
def WidthClass.code : WidthClass → BitVec 2
  | .bits32 => 1#2
  | .bits64 => 2#2
  | .bits128 => 3#2

/-- The width in bits that a class names (spec/30_encoding.md R47). -/
def WidthClass.bits : WidthClass → Nat
  | .bits32 => 32
  | .bits64 => 64
  | .bits128 => 128

/-- The rank of a letter, by wrapping subtraction on the whole code (spec/30_encoding.md R51). -/
def letterRank {m : Nat} (c : CharCode m) : CharCode m := c - BitVec.ofNat m 0x41

/-- `in_range` (spec/30_encoding.md R51). -/
def rankInRange {m : Nat} (rank : CharCode m) : Bool := decide (rank.toNat ≤ 25)

/-- `zext_W(1) << rank`, a left shift (spec/30_encoding.md R53, spec/42_bit_test_mux.md R75). -/
def extensionMask (n rank : Nat) : Word n := zext n 1#1 <<< rank

/-- The parallel bit-test multiplexer (spec/42_bit_test_mux.md R70): false for every code that is no letter 'A' to
'Z', and otherwise whether the letter's bit is set. -/
def hasExtension {n m : Nat} (bits : Word n) (c : CharCode m) : Bool :=
  if rankInRange (letterRank c) then decide (bits &&& extensionMask n (letterRank c).toNat ≠ 0) else false

/-- `true` is 1 and `false` is 0, in bit 0 (spec/30_encoding.md R48). -/
def boolData (n : Nat) (v : Bool) : Word n := zext n (BitVec.ofBool v)

/-- The view a raw value gives: zero is "absent", and any bit set anywhere makes it present
(spec/40_view_extractor.md R59, R60). -/
def View.construct {n : Nat} (raw : Word n) : View n := if raw = 0 then .absent else .present raw

/-- The cause code of the fatal, where a number is wanted (spec/60_exceptions.md R78). -/
def FatalCause.code : FatalCause → Nat
  | .widthFieldZero => 1

/-- Status codes (spec/30_encoding.md R45). -/
def Status.code : Status → BitVec 2
  | .ok => 0#2
  | .noView => 1#2
  | .fatal => 2#2

/-- The status of a response. -/
def Response.status {n : Nat} : Response n → Status
  | .ok _ => .ok
  | .noView => .noView
  | .fatal => .fatal

/-- The data field of a response word: all zeros unless the status is OK (spec/30_encoding.md R44, R46). -/
def Response.wireData {n : Nat} : Response n → Word n
  | .ok d => d
  | .noView => 0
  | .fatal => 0

/-- The response word `{data, status}` (spec/30_encoding.md R44). -/
def Response.word {n : Nat} (r : Response n) : BitVec (n + 2) := r.wireData ++ r.status.code

end Sys2Proof.Machine
end

