-- ==== Sys2Proof/Machine/Flags.lean ====
section
/-! DEFINITION. The block's only status bits: the two level outputs, functions of the slot alone (spec/10_state.md
R15, R24). -/

namespace Sys2Proof.Machine

/-- The output `present` of a slot value (spec/10_state.md R15). -/
def View.isPresent {n : Nat} : View n → Bool
  | .empty => false
  | .absent => false
  | .present _ => true
  | .halted => false

/-- The output `fatal` of a slot value (spec/10_state.md R15). -/
def View.isHalted {n : Nat} : View n → Bool
  | .empty => false
  | .absent => false
  | .present _ => false
  | .halted => true

/-- The level output `present`. -/
def State.presentOut (s : State) : Bool := s.view.isPresent

/-- The level output `fatal`. -/
def State.fatalOut (s : State) : Bool := s.view.isHalted

/-- The word on the response port, where a response is pending (spec/30_encoding.md R44). -/
def State.rspWord (s : State) : Option (Word s.build.rspBits) := s.rsp.map Response.word

end Sys2Proof.Machine
end

