-- ==== Sys2Proof/Machine/Ops.lean ====
section
/-! DEFINITION. The named operations over the slot and the ports that the meanings share: answering, refusing, the
fatal's entry and the reset that alone leaves it (spec/60_exceptions.md R79 to R85; spec/70_reset_and_hazards.md R93),
and taking the host's next event (spec/20_memory.md R35). -/

namespace Sys2Proof.Machine

/-- `respond(status, data)`: the one response of a request (spec/00_scope.md R10 (c)). -/
def respond (s : State) (r : Response s.build.wordBits) : State := { s with rsp := some r }

/-- `VIEW <- v` (spec/00_scope.md R10 (a)). -/
def setView (s : State) (v : View s.build.wordBits) : State := { s with view := v }

/-- `refuse(NO_VIEW)`: answered NO_VIEW, nothing else changes (spec/60_exceptions.md R80). -/
def refuseNoView (s : State) : State := respond s .noView

/-- A halted block answers FATAL and changes nothing (spec/60_exceptions.md R81). -/
def answerHalted (s : State) : State := respond s .fatal

/-- `raise Fatal(cause)`: `VIEW <- HALTED; respond(FATAL, 0)` (spec/60_exceptions.md R79).  The cause is recorded
nowhere (R78). -/
def raiseFatal (_cause : FatalCause) (s : State) : State := respond (setView s .halted) .fatal

/-- The checks every query makes before it computes a result, in their order (spec/60_exceptions.md R84). -/
def serveQuery (s : State) (result : Word s.build.wordBits → State) : State :=
  match s.view with
  | .halted => answerHalted s
  | .empty => refuseNoView s
  | .absent => refuseNoView s
  | .present bits => result bits

/-- The outcome of a capture, in the slot and on the response port (spec/40_view_extractor.md R59). -/
def recordCapture (s : State) (raw : Word s.build.wordBits) : State :=
  respond (setView s (View.construct raw)) (.ok (boolData s.build.wordBits (View.construct raw).isPresent))

/-- A capture: refused with FATAL while halted, and otherwise the same from every slot value
(spec/40_view_extractor.md R59, R62). -/
def serveCapture (s : State) (raw : Word s.build.wordBits) : State :=
  match s.view with
  | .halted => answerHalted s
  | .empty => recordCapture s raw
  | .absent => recordCapture s raw
  | .present _ => recordCapture s raw

/-- Reset, from any state: the slot is EMPTY and no response is pending (spec/70_reset_and_hazards.md R93). -/
def applyReset (s : State) : State := { s with view := .empty, rsp := none }

/-- A step in which the host presents nothing: the slot keeps its value (spec/60_exceptions.md R86) and no response is
pending, since a response exists only as the answer to a request (spec/10_state.md R27).  DEDUCED, log entry 4. -/
def idle (s : State) : State := { s with rsp := none }

/-- What a step finds on the block's inputs, with the state whose event list has moved on. -/
inductive Fetched where
  | nothing
  | reset (rest : State)
  | request (i : Instr) (rest : State)

/-- Take the host's oldest event; a request word is decoded as it is taken (spec/20_memory.md R35). -/
def fetch (s : State) : Fetched :=
  match s.events with
  | [] => .nothing
  | .reset :: rest => .reset { s with events := rest }
  | .request q :: rest => .request (decodeWord s.build q) { s with events := rest }

/-- The host presents the request word `w` before anything else it will do. -/
def presentWord (s : State) (w : Word s.build.reqBits) : State := { s with events := .request w :: s.events }

end Sys2Proof.Machine
end

