-- ==== Sys2Proof/Machine/BitTestMux.lean ====
section
/-! DEFINITION. The parallel bit-test multiplexer: HASEXT (spec/42_bit_test_mux.md). -/

namespace Sys2Proof.Machine

/-- HASEXT `letter` (spec/42_bit_test_mux.md R70): defined for every code that fits `CHAR_W` bits (R72). -/
def execHasext (letter : Nat) (s : State) : Host.Outcome State Fault Refusal :=
  if letter < 2 ^ s.build.charW then
    .next (serveQuery s fun bits =>
      respond s (.ok (boolData s.build.wordBits (hasExtension bits (BitVec.ofNat s.build.charW letter)))))
  else .refused .operandTooWide

end Sys2Proof.Machine
end

