-- ==== Sys2Proof/Machine/ViewExtractor.lean ====
section
/-! DEFINITION. The CSR view extractor: CAPTURE and BITS (spec/40_view_extractor.md). -/

namespace Sys2Proof.Machine

/-- CAPTURE `raw` (spec/40_view_extractor.md R59 to R62): nothing but `raw = 0` is checked. -/
def execCapture (raw : Nat) (s : State) : Host.Outcome State Fault Refusal :=
  if raw < 2 ^ s.build.wordBits then .next (serveCapture s (BitVec.ofNat s.build.wordBits raw))
  else .refused .operandTooWide

/-- BITS (spec/40_view_extractor.md R63): all `W` bits of the view, unchanged. -/
def execBits (s : State) : Host.Outcome State Fault Refusal :=
  .next (serveQuery s fun bits => respond s (.ok bits))

end Sys2Proof.Machine
end

