-- ==== Sys2Proof/Machine/WidthDecoder.lean ====
section
/-! DEFINITION. The bitfield decoder: WIDTH (spec/41_width_decoder.md). -/

namespace Sys2Proof.Machine

/-- WIDTH (spec/41_width_decoder.md R65): the class the width field names, or the fatal where it names none. -/
def execWidth (s : State) : Host.Outcome State Fault Refusal :=
  .next (serveQuery s fun bits =>
    match WidthClass.ofField (widthField bits) with
    | some wc => respond s (.ok (zext s.build.wordBits wc.code))
    | none => raiseFatal .widthFieldZero s)

end Sys2Proof.Machine
end

