-- ==== Sys2Proof/Machine/Dispatch.lean ====
section
/-! DEFINITION. One arm per request (spec/30_encoding.md R43). -/

namespace Sys2Proof.Machine

def exec (i : Instr) (s : State) : Host.Outcome State Fault Refusal :=
  match i with
  | .capture raw => Sys2Proof.Machine.execCapture raw s
  | .bits => Sys2Proof.Machine.execBits s
  | .width => Sys2Proof.Machine.execWidth s
  | .hasext letter => Sys2Proof.Machine.execHasext letter s

end Sys2Proof.Machine
end

