-- ==== Sys2Proof/Machine/Step.lean ====
section
/-! DEFINITION. One step: the host's next event, taken whole (spec/20_memory.md R35). -/

namespace Sys2Proof.Machine

/-- One step of the block.  A request is one atomic step (spec/20_memory.md R35), reset falls between two requests
(spec/70_reset_and_hazards.md R93), and where the host presents nothing the block waits. -/
def step (s : State) : Host.Outcome State Fault Refusal :=
  match fetch s with
  | .nothing => .next (idle s)
  | .reset rest => .next (applyReset rest)
  | .request i rest => exec i rest

/-- The state with the request whose low `nbits` bits are `w` (higher bits 0) presented as the next one.  A number
that does not fit the request port can not be presented, and then nothing is (log entries 6 and 9). -/
def State.withFetchWord (s : State) (nbits w : Nat) : State :=
  if w % 2 ^ nbits < 2 ^ s.build.reqBits then presentWord s (BitVec.ofNat s.build.reqBits (w % 2 ^ nbits)) else s

end Sys2Proof.Machine
end

