-- ==== Sys2Proof/Machine/Platform.lean ====
section
/-! DEFINITION. A platform of `N_INST` independent blocks (spec/00_scope.md R7, spec/60_exceptions.md R92). -/

namespace Sys2Proof.Machine

/-- `n = N_INST` blocks side by side, `N_INST >= 1` (spec/00_scope.md R7); they share no state and have no channel
between them (spec/60_exceptions.md R92). -/
structure Platform (n : Nat) where
  blocks : Vector State n
  n_ge : 1 ≤ n
  deriving DecidableEq, Repr

/-- Every block right after reset, each of its own build. -/
def Platform.reset {n : Nat} (builds : Vector Build n) (n_ge : 1 ≤ n) : Platform n :=
  ⟨builds.map State.resetOf, n_ge⟩

/-- The platform a build gives by default: one block (spec/00_scope.md R7). -/
def Platform.single : Platform Config.defaultInstances :=
  Platform.reset (Vector.replicate _ Build.default) (by decide)

/-- Block `k` takes one step.  Which block moves next is the platform's affair and an argument here (log entry 10). -/
def Platform.stepBlock {n : Nat} (p : Platform n) (k : Fin n) : Host.Outcome (Platform n) Fault Refusal :=
  match step p.blocks[k] with
  | .next s => .next { p with blocks := p.blocks.set k s }
  | .fault r => .fault r
  | .refused r => .refused r

end Sys2Proof.Machine
end

