-- ==== Sys2Proof/Machine/Text.lean ====
section
/-! DEFINITION. The textual form of requests and responses (spec/30_encoding.md R57), with the literals of
spec/00_scope.md R8.  A text is a list of characters. -/

namespace Sys2Proof.Machine

/-! Literals (spec/00_scope.md R8). -/

/-- The digit of value `d`, below 16. -/
def hexDigit (d : Nat) : Char := Char.ofNat (if d < 10 then 0x30 + d else 0x41 + (d - 10))

/-- The low `k` hexadecimal digits of `v`, most significant first. -/
def hexDigits : Nat → Nat → List Char
  | 0, _ => []
  | k + 1, v => hexDigits k (v / 16) ++ [hexDigit (v % 16)]

/-- `v` as a hexadecimal literal of `k` digits. -/
def hexLiteral (k v : Nat) : List Char := '0' :: 'x' :: hexDigits k v

/-- The value of a digit of any base up to 16. -/
def digitValue (c : Char) : Option Nat :=
  if 0x30 ≤ c.toNat ∧ c.toNat ≤ 0x39 then some (c.toNat - 0x30)
  else if 0x41 ≤ c.toNat ∧ c.toNat ≤ 0x46 then some (c.toNat - 0x41 + 10)
  else if 0x61 ≤ c.toNat ∧ c.toNat ≤ 0x66 then some (c.toNat - 0x61 + 10)
  else none

/-- Read digits after the value `acc`; underscores are spacing. -/
def readDigitsFrom (base : Nat) : Nat → List Char → Option Nat
  | acc, [] => some acc
  | acc, c :: cs =>
    if c = '_' then readDigitsFrom base acc cs
    else match digitValue c with
      | some d => if d < base then readDigitsFrom base (acc * base + d) cs else none
      | none => none

/-- Read a digit string; it holds at least one digit. -/
def readDigits (base : Nat) (cs : List Char) : Option Nat :=
  if cs.all (fun c => c == '_') then none else readDigitsFrom base 0 cs

/-- A literal that stands for a `bits`-bit value: `0x...` hexadecimal, `0b...` binary, `N'hX` with `N = bits`, and
anything else decimal. -/
def readLiteral (bits : Nat) (cs : List Char) : Option Nat :=
  let value : Option Nat := match cs with
    | '0' :: 'x' :: ds => readDigits 16 ds
    | '0' :: 'b' :: ds => readDigits 2 ds
    | _ => match cs.span (fun c => c != '\'') with
      | (n, '\'' :: 'h' :: ds) => if readDigits 10 n = some bits then readDigits 16 ds else none
      | (n, []) => readDigits 10 n
      | (_, _) => none
  match value with
  | some v => if v < 2 ^ bits then some v else none
  | none => none

/-! Requests (spec/30_encoding.md R57). -/

/-- A letter code as text: 'A' to 'Z' as the quoted character, any other code as its literal. -/
def letterText (charW c : Nat) : List Char :=
  if 0x41 ≤ c ∧ c ≤ 0x5A then ['\'', Char.ofNat c, '\''] else hexLiteral ((charW + 3) / 4) c

/-- The text of a request, one line without its end (log entry 11). -/
def requestText (b : Build) : Instr → List Char
  | .capture raw => ['C', 'A', 'P', 'T', 'U', 'R', 'E', ' '] ++ hexLiteral (b.wordBits / 4) raw
  | .bits => ['B', 'I', 'T', 'S']
  | .width => ['W', 'I', 'D', 'T', 'H']
  | .hasext c => ['H', 'A', 'S', 'E', 'X', 'T', ' '] ++ letterText b.charW c

/-- What may stand between a request and the end of its line: spaces, then a comment. -/
def endOfRequest : List Char → Bool
  | [] => true
  | ' ' :: cs => endOfRequest cs
  | ';' :: _ => true
  | _ => false

/-- Drop leading spaces. -/
def skipSpaces : List Char → List Char
  | ' ' :: cs => skipSpaces cs
  | cs => cs

/-- The characters up to the next space or comment, and the rest. -/
def nextToken (cs : List Char) : List Char × List Char := cs.span (fun c => c != ' ' && c != ';')

/-- The operand of HASEXT and the rest of the line: a quoted character, or a literal for its code. -/
def readLetter (bits : Nat) (cs : List Char) : Option (Nat × List Char) :=
  match cs with
  | '\'' :: c :: '\'' :: rest => if c.toNat < 2 ^ bits then some (c.toNat, rest) else none
  | _ => (readLiteral bits (nextToken cs).1).map fun v => (v, (nextToken cs).2)

/-- Read one request from a line (log entry 11). -/
def readRequest (b : Build) (line : List Char) : Option Instr :=
  let (name, rest) := nextToken (skipSpaces line)
  if name = ['C', 'A', 'P', 'T', 'U', 'R', 'E'] then
    let (operand, rest) := nextToken (skipSpaces rest)
    if endOfRequest rest then (readLiteral b.wordBits operand).map .capture else none
  else if name = ['B', 'I', 'T', 'S'] then
    if endOfRequest rest then some .bits else none
  else if name = ['W', 'I', 'D', 'T', 'H'] then
    if endOfRequest rest then some .width else none
  else if name = ['H', 'A', 'S', 'E', 'X', 'T'] then
    match readLetter b.charW (skipSpaces rest) with
    | some (c, rest) => if endOfRequest rest then some (.hasext c) else none
    | none => none
  else none

/-! Responses (spec/30_encoding.md R57). -/

/-- `-> OK <data>`, `-> NO_VIEW` or `-> FATAL`.  R57 does not say how `<data>` is spelled; the model writes a
hexadecimal literal of `W/4` digits, whatever the operation.  DESIGN CHOICE, log entry 11. -/
def responseText {n : Nat} : Response n → List Char
  | .ok d => ['-', '>', ' ', 'O', 'K', ' '] ++ hexLiteral (n / 4) d.toNat
  | .noView => ['-', '>', ' ', 'N', 'O', '_', 'V', 'I', 'E', 'W']
  | .fatal => ['-', '>', ' ', 'F', 'A', 'T', 'A', 'L']

/-- The readable word for an OK answer of an operation, where R57 gives one. -/
def readableResult (op : Op) (data : Nat) : Option (List Char) :=
  match op, data with
  | .capture, 0 => some ['A', 'b', 's', 'e', 'n', 't']
  | .capture, 1 => some ['P', 'r', 'e', 's', 'e', 'n', 't']
  | .width, 1 => some ['3', '2', '-', 'b', 'i', 't']
  | .width, 2 => some ['6', '4', '-', 'b', 'i', 't']
  | .width, 3 => some ['1', '2', '8', '-', 'b', 'i', 't']
  | .hasext, 0 => some ['f', 'a', 'l', 's', 'e']
  | .hasext, 1 => some ['t', 'r', 'u', 'e']
  | _, _ => none

/-- The text of a response to an operation, with the readable word where R57 gives one and `<data>` as `responseText`
spells it elsewhere (log entry 11). -/
def readableResponseText {n : Nat} (op : Op) (r : Response n) : List Char :=
  match r with
  | .ok d => match readableResult op d.toNat with
    | some w => ['-', '>', ' ', 'O', 'K', ' '] ++ w
    | none => responseText r
  | .noView => responseText r
  | .fatal => responseText r

end Sys2Proof.Machine
end

