-- ==== Sys2Proof/Safety.lean ====
section
/-! DEFINITION. What counts as a good state and a safe run, and the block's reference behaviour as the equations that
close spec/95_test_vectors.md, written with plain number arithmetic. -/

namespace Sys2Proof.Machine

/-- A PRESENT slot holds a nonzero payload (spec/10_state.md R13). -/
def View.wf {n : Nat} : View n → Prop
  | .empty => True
  | .absent => True
  | .present bits => bits ≠ 0
  | .halted => True

/-- The slot value that goes with an answer, after the request that got it: an OK answer leaves a slot some CAPTURE
has filled, NO_VIEW a slot without a view, and FATAL a halted block (spec/60_exceptions.md R79 to R84). -/
def Response.agreesWith {n : Nat} : Response n → View n → Prop
  | .ok _, v => v ≠ .empty ∧ v ≠ .halted
  | .noView, v => v = .empty ∨ v = .absent
  | .fatal, v => v = .halted

/-- The invariant of the block: the payload is nonzero, and the answer on the response port goes with the slot. -/
def State.Inv (s : State) : Prop := s.view.wf ∧ ∀ r, s.rsp = some r → r.agreesWith s.view

/-- A state of a safe run: no fatal has been raised since reset (spec/60_exceptions.md R79, R87). -/
def State.safe (s : State) : Prop := s.fatalOut = false

/-- `n` steps of the machine. -/
def run (n : Nat) (s : State) : Host.Outcome State Fault Refusal := Host.Core.run core n s

/-- The value of the width field as a number, `bits >> (W-2)` (spec/30_encoding.md R50). -/
def fieldValue {n : Nat} (bits : Word n) : Nat := bits.toNat / 2 ^ (n - 2)

/-- One equation for each kind of slot and request (spec/95_test_vectors.md, "Properties a model should prove", 1 to
6). -/
def refStep {n : Nat} (v : View n) (i : Instr) : View n × Response n :=
  match v, i with
  | .halted, _ => (.halted, .fatal)
  | _, .capture raw => if raw = 0 then (.absent, .ok 0) else (.present (BitVec.ofNat n raw), .ok 1)
  | .present bits, .bits => (.present bits, .ok bits)
  | .present bits, .width =>
    if fieldValue bits = 0 then (.halted, .fatal) else (.present bits, .ok (BitVec.ofNat n (fieldValue bits)))
  | .present bits, .hasext c =>
    (.present bits, .ok (if 0x41 ≤ c ∧ c ≤ 0x5A ∧ bits.toNat.testBit (c - 0x41) then 1 else 0))
  | v, _ => (v, .noView)

/-- The reference behaviour over a sequence of requests: the last slot value and the answers in order
(spec/20_memory.md R35). -/
def refRun {n : Nat} (v : View n) : List Instr → View n × List (Response n)
  | [] => (v, [])
  | i :: is => ((refRun (refStep v i).1 is).1, (refStep v i).2 :: (refRun (refStep v i).1 is).2)

end Sys2Proof.Machine
end

