-- ==== Sys2Proof/Certificates/Slice0/Obligations.lean ====
section
/-! DEFINITION. The statements about the block, from the numbered rules of spec/.  An operand is quantified as a word on
its own lines (`raw : Word W`, `c : CharCode CHAR_W`), so every form the request port can carry is covered, and the
slot, the answer and the rest of the state after a request are given together as one whole next state. -/

open Sys2Proof Sys2Proof.Machine

/-! Reset, steps, and the host's events. -/

/-- spec/10_state.md R27, for every build. -/
def Obligations.ResetLeavesTheSlotEmpty : Prop :=
  ∀ b : Build, (State.resetOf b).build = b ∧ (State.resetOf b).view = .empty ∧ (State.resetOf b).rsp = none ∧
    (State.resetOf b).presentOut = false ∧ (State.resetOf b).fatalOut = false

/-- Reset from any state, HALTED and PRESENT among them, takes no request and leaves the state of R27
(spec/70_reset_and_hazards.md R93).  That it is one event between two requests is the model's reading (log entry 5). -/
def Obligations.ResetEventRestartsTheBlock : Prop :=
  ∀ (s : State) (rest : List (HostEvent s.build.reqBits)), s.events = .reset :: rest →
    ∃ t, step s = .next t ∧ t = { s with view := .empty, rsp := none, events := rest } ∧
      t.presentOut = false ∧ t.fatalOut = false

/-- The model's choice (log entry 4): where the host presents nothing, the slot stays and no response is pending. -/
def Obligations.IdleStepKeepsTheSlot : Prop :=
  ∀ s : State, s.events = [] → step s = .next { s with rsp := none }

/-- A step runs the decoded request: the oldest request word is taken, its request fits the build, and the step is
`exec` of it (spec/20_memory.md R35, spec/30_encoding.md R41). -/
def Obligations.StepRunsTheDecodedRequest : Prop :=
  ∀ (s : State) (q : Word s.build.reqBits) (rest : List (HostEvent s.build.reqBits)),
    s.events = .request q :: rest →
      (decodeWord s.build q).wf s.build = true ∧ step s = exec (decodeWord s.build q) { s with events := rest }

/-- The block never stops, whatever the host does, and a step changes nothing but the slot, the response port and the
event it takes; the build stays as it is (spec/20_memory.md R35, spec/70_reset_and_hazards.md R94). -/
def Obligations.EveryStepContinues : Prop :=
  ∀ s : State, ∃ v x, step s = .next { s with view := v, rsp := x, events := s.events.tail }

/-- A request is answered by one response word, nothing else is, and the word is `{data, status}` with data all zeros
unless the status is OK (spec/30_encoding.md R44).  That no response is pending after a step without a request is the
model's reading (log entry 4). -/
def Obligations.EveryRequestIsAnsweredByOneWord : Prop :=
  (∀ (s : State) (q : Word s.build.reqBits) (rest : List (HostEvent s.build.reqBits)),
    s.events = .request q :: rest →
      ∃ v r, step s = .next { s with view := v, rsp := some r, events := rest }) ∧
  (∀ s t : State, (∀ q rest, s.events ≠ .request q :: rest) → step s = .next t → t.rsp = none) ∧
  (∀ (n : Nat) (r : Response n), r.word.extractLsb' 0 2 = r.status.code ∧
    r.word.extractLsb' 2 n = (match r with | .ok d => d | _ => 0))

/-! Request words. -/

/-- A few request words of spec/95_test_vectors.md V5, P4 and P5 decode to the requests they stand for. -/
def Obligations.SpecWordsDecode : Prop :=
  decodeTableWord 48 0x20000000400 = some (.capture 0x80000001) ∧
  decodeTableWord 48 0x10000441400 = some (.capture 0x40001105) ∧
  decodeTableWord 48 0x1 = some .bits ∧ decodeTableWord 48 0x2 = some .width ∧
  decodeTableWord 48 0x3FFFFFFFFFE = some .width ∧
  decodeTableWord 48 0x107 = some (.hasext 0x41) ∧ decodeTableWord 48 0x16B = some (.hasext 0x5A) ∧
  decodeWord ⟨.w64, 8, by decide⟩ 0x200000000005044B400 = .capture 0x800000000014112D ∧
  decodeWord ⟨.w128, 8, by decide⟩ 0x30000000000000000000000000800000000 =
    .capture 0xC0000000000000000000000002000000

/-- Decode and encode agree: for every build and every request that fits it, decoding the canonical word gives the
request back, with every operand at every value. -/
def Obligations.DecodeOfEncodeIsTheRequest : Prop :=
  ∀ (b : Build) (i : Instr), i.wf b = true → decodeWord b (encode b i) = i

/-- spec/30_encoding.md R43: every request word selects exactly one row of the opcode table, the row of the request it
decodes to. -/
def Obligations.EveryWordSelectsOneRow : Prop :=
  opcodeRows = [⟨.capture, 0x0, 0x3⟩, ⟨.bits, 0x1, 0x3⟩, ⟨.width, 0x2, 0x3⟩, ⟨.hasext, 0x3, 0x3⟩] ∧
  [Op.capture, Op.bits, Op.width, Op.hasext].map Op.mnemonic = ["CAPTURE", "BITS", "WIDTH", "HASEXT"] ∧
  ∀ (b : Build) (q : Word b.reqBits), ∀ r ∈ opcodeRows, (r.selects q.toNat = true ↔ r.op = (decodeWord b q).op)

/-- spec/30_encoding.md R49: the ignored fields of a request word change neither the answer nor the next slot value,
and the canonical word has them zero. -/
def Obligations.IgnoredFieldsHaveNoEffect : Prop :=
  (∀ (s : State) (q q' : Word s.build.reqBits), reqOp q = reqOp q' →
    (reqOp q = 0#2 → reqRaw q = reqRaw q') → (reqOp q = 3#2 → reqLetter q = reqLetter q') →
      exec (decodeWord s.build q) s = exec (decodeWord s.build q') s) ∧
  (∀ (b : Build) (raw : Word b.wordBits) (c : CharCode b.charW),
    (encode b (.capture raw.toNat)).toNat = raw.toNat * 2 ^ (b.charW + 2) ∧
    (encode b .bits).toNat = 1 ∧ (encode b .width).toNat = 2 ∧
    (encode b (.hasext c.toNat)).toNat = c.toNat * 4 + 3)

/-- The model's choice (log entry 8): an operand that no request word of the build carries is refused by name. -/
def Obligations.OperandsTooWideAreRefused : Prop :=
  ∀ (i : Instr) (s : State), i.wf s.build = false ↔ exec i s = .refused .operandTooWide

/-! CAPTURE and BITS. -/

/-- spec/40_view_extractor.md R59, R62: what CAPTURE does from every slot value. -/
def Obligations.CaptureRecordsTheRawValue : Prop :=
  ∀ (s : State) (raw : Word s.build.wordBits),
    exec (.capture raw.toNat) s = .next
      (match s.view with
        | .halted => { s with rsp := some .fatal }
        | _ => if raw = 0 then { s with view := .absent, rsp := some (.ok 0) }
               else { s with view := .present raw, rsp := some (.ok 1) }) ∧
    (s.view ≠ .halted → ∀ t, exec (.capture raw.toNat) s = .next t → (t.presentOut = true ↔ raw ≠ 0)) ∧
    (∀ q : Word s.build.reqBits, reqOp q = 0#2 → decodeWord s.build q = .capture (reqRaw q).toNat)

/-- spec/40_view_extractor.md R63: what BITS does on every slot value; its OK answer is never 0 in a state that meets
the invariant. -/
def Obligations.BitsReturnsTheView : Prop :=
  ∀ s : State,
    exec .bits s = .next
      (match s.view with
        | .halted => { s with rsp := some .fatal }
        | .empty => { s with rsp := some .noView }
        | .absent => { s with rsp := some .noView }
        | .present bits => { s with rsp := some (.ok bits) }) ∧
    (s.Inv → ∀ t d, exec .bits s = .next t → t.rsp = some (.ok d) → d ≠ 0) ∧
    (∀ q : Word s.build.reqBits, reqOp q = 1#2 → decodeWord s.build q = .bits)

/-- spec/40_view_extractor.md R64: CAPTURE of a nonzero value, then any queries none of which raises the fatal, then
BITS: the answer is the value captured. -/
def Obligations.CapturedBitsRoundTrip : Prop :=
  ∀ (s : State) (raw : Word s.build.wordBits) (between : List Instr) (rest : List (HostEvent s.build.reqBits)),
    s.view ≠ .halted → raw ≠ 0 →
    (∀ i ∈ between, i.wf s.build = true ∧ i.op.isQuery = true ∧ (i = .width → fieldValue raw ≠ 0)) →
    s.events = (Instr.capture raw.toNat :: between ++ [Instr.bits]).map (fun i => .request (encode s.build i)) ++ rest →
      run (between.length + 2) s = .next { s with view := .present raw, rsp := some (.ok raw), events := rest }

/-! WIDTH. -/

/-- spec/41_width_decoder.md R65: what WIDTH does on every slot value. -/
def Obligations.WidthDecodesTheField : Prop :=
  ∀ s : State,
    exec .width s = .next
      (match s.view with
        | .halted => { s with rsp := some .fatal }
        | .empty => { s with rsp := some .noView }
        | .absent => { s with rsp := some .noView }
        | .present bits =>
          if bits.toNat / 2 ^ (s.build.wordBits - 2) = 0 then { s with view := .halted, rsp := some .fatal }
          else { s with rsp := some (.ok (BitVec.ofNat _ (bits.toNat / 2 ^ (s.build.wordBits - 2)))) }) ∧
    (∀ bits, s.view = .present bits → bits.toNat / 2 ^ (s.build.wordBits - 2) < 4) ∧
    (∀ bits t, s.view = .present bits → exec .width s = .next t →
      (t.fatalOut = true ↔ bits.toNat / 2 ^ (s.build.wordBits - 2) = 0) ∧ (t.presentOut = !t.fatalOut)) ∧
    (∀ q : Word s.build.reqBits, reqOp q = 2#2 → decodeWord s.build q = .width)

/-- spec/30_encoding.md R50: the field is the two most significant bits of the word, at bit position `W - 2`. -/
def Obligations.WidthFieldIsTheTopTwoBits : Prop :=
  (∀ (b : Build) (bits : Word b.wordBits),
    (widthField bits).toNat = bits.toNat / 2 ^ (b.wordBits - 2) ∧
    (widthField bits).getLsbD 1 = bits.getLsbD (b.wordBits - 1) ∧
    (widthField bits).getLsbD 0 = bits.getLsbD (b.wordBits - 2)) ∧
  (∀ bits : Word 32, widthField bits = bits.extractLsb 31 30) ∧
  (∀ bits : Word 64, widthField bits = bits.extractLsb 63 62) ∧
  (∀ bits : Word 128, widthField bits = bits.extractLsb 127 126)

/-- The answer of WIDTH by the top hexadecimal digit of the payload, for every `W` (spec/41_width_decoder.md R67). -/
def Obligations.WidthByTopHexDigit : Prop :=
  ∀ (s : State) (bits : Word s.build.wordBits) (digit : Nat), s.view = .present bits →
    digit = bits.toNat / 2 ^ (s.build.wordBits - 4) →
    digit ≤ 0xF ∧
    (digit ≤ 3 → exec .width s = .next { s with view := .halted, rsp := some .fatal }) ∧
    (4 ≤ digit → digit ≤ 7 → exec .width s = .next { s with rsp := some (.ok 1) }) ∧
    (8 ≤ digit → digit ≤ 0xB → exec .width s = .next { s with rsp := some (.ok 2) }) ∧
    (0xC ≤ digit → exec .width s = .next { s with rsp := some (.ok 3) })

/-- spec/41_width_decoder.md R66: two payloads with the same two top bits get the same answer from WIDTH, the value of
that field, and both views stay; or, where the field is 0, both blocks halt. -/
def Obligations.WidthReadsOnlyTheTopTwoBits : Prop :=
  ∀ (s : State) (x y : Word s.build.wordBits),
    x.getLsbD (s.build.wordBits - 1) = y.getLsbD (s.build.wordBits - 1) →
    x.getLsbD (s.build.wordBits - 2) = y.getLsbD (s.build.wordBits - 2) →
    (fieldValue x ≠ 0 ∧
      exec .width { s with view := .present x } =
        .next { s with view := .present x, rsp := some (.ok (BitVec.ofNat _ (fieldValue x))) } ∧
      exec .width { s with view := .present y } =
        .next { s with view := .present y, rsp := some (.ok (BitVec.ofNat _ (fieldValue x))) }) ∨
    (fieldValue x = 0 ∧
      exec .width { s with view := .present x } = .next { s with view := .halted, rsp := some .fatal } ∧
      exec .width { s with view := .present y } = .next { s with view := .halted, rsp := some .fatal })

/-- The class a field value names, its code, and its width (spec/30_encoding.md R47, spec/10_state.md R20). -/
def Obligations.WidthClassCodes : Prop :=
  WidthClass.ofField 0#2 = none ∧ WidthClass.ofField 1#2 = some .bits32 ∧ WidthClass.ofField 2#2 = some .bits64 ∧
  WidthClass.ofField 3#2 = some .bits128 ∧
  (∀ wc : WidthClass, WidthClass.ofField wc.code = some wc ∧ wc.code ≠ 0#2 ∧ wc.bits = 2 ^ (4 + wc.code.toNat))

/-- The captured values on which WIDTH halts the block are exactly 1 to `2^(W-2) - 1` (spec/41_width_decoder.md
R68). -/
def Obligations.FatalValuesAreTheLowQuarter : Prop :=
  ∀ (s : State) (raw : Word s.build.wordBits), s.view ≠ .halted → raw ≠ 0 →
    ∃ t u, exec (.capture raw.toNat) s = .next t ∧ t.presentOut = true ∧ exec .width t = .next u ∧
      (u.fatalOut = true ↔ 1 ≤ raw.toNat ∧ raw.toNat ≤ 2 ^ (s.build.wordBits - 2) - 1)

/-- A value from a narrower register (of `n <= W - 2` bits, zero-extended) tests its letters correctly and halts the
block on WIDTH; a wider one, cut to `W` bits, gets a class from whatever two bits sit at the top of what is left
(spec/70_reset_and_hazards.md R101, spec/41_width_decoder.md R69). -/
def Obligations.ValuesOfAnotherWidth : Prop :=
  (∀ (s : State) (n : Nat) (v : Word n), n ≤ s.build.wordBits - 2 →
    s.view = .present (v.setWidth s.build.wordBits) →
      exec .width s = .next { s with view := .halted, rsp := some .fatal } ∧
      ∀ k ≤ 25, exec (.hasext (0x41 + k)) s =
        .next { s with rsp := some (.ok (if v.getLsbD k then 1 else 0)) }) ∧
  (∀ (s : State) (n : Nat) (v : Word n), s.build.wordBits < n →
    s.view = .present (v.setWidth s.build.wordBits) →
      v.toNat / 2 ^ (s.build.wordBits - 2) % 4 ≠ 0 →
      exec .width s = .next { s with rsp := some (.ok (BitVec.ofNat _ (v.toNat / 2 ^ (s.build.wordBits - 2) % 4))) })

/-! HASEXT. -/

/-- spec/42_bit_test_mux.md R70: what HASEXT does on every slot value and for every code, by the wrapping rank and the
mask. -/
def Obligations.HasextTestsTheMaskedBit : Prop :=
  ∀ (s : State) (c : CharCode s.build.charW) (rank : Nat),
    rank = (c.toNat + 2 ^ s.build.charW - 0x41) % 2 ^ s.build.charW →
    exec (.hasext c.toNat) s = .next
      (match s.view with
        | .halted => { s with rsp := some .fatal }
        | .empty => { s with rsp := some .noView }
        | .absent => { s with rsp := some .noView }
        | .present bits =>
          { s with rsp := some (.ok (if rank > 25 then 0
              else if bits &&& (BitVec.ofNat _ 1 <<< rank) ≠ 0 then 1 else 0)) }) ∧
    (∀ q : Word s.build.reqBits, reqOp q = 3#2 → decodeWord s.build q = .hasext (reqLetter q).toNat)

/-- spec/42_bit_test_mux.md R71: on a view, a letter's answer is its own bit and every other code's answer is 0, which
the two masked forms equal. -/
def Obligations.HasextIsAMultiplexer : Prop :=
  ∀ (s : State) (bits : Word s.build.wordBits) (c : CharCode s.build.charW), s.view = .present bits →
    (0x41 ≤ c.toNat → c.toNat ≤ 0x5A →
      exec (.hasext c.toNat) s =
        .next { s with rsp := some (.ok (if bits.getLsbD (c.toNat - 0x41) then 1 else 0)) } ∧
      (bits &&& extensionMask _ (c.toNat - 0x41) ≠ 0 ↔ bits.getLsbD (c.toNat - 0x41) = true) ∧
      (bits &&& extensionMask _ (c.toNat - 0x41) = extensionMask _ (c.toNat - 0x41) ↔
        bits.getLsbD (c.toNat - 0x41) = true)) ∧
    (¬(0x41 ≤ c.toNat ∧ c.toNat ≤ 0x5A) → exec (.hasext c.toNat) s = .next { s with rsp := some (.ok 0) })

/-- spec/42_bit_test_mux.md R72, R73 and spec/60_exceptions.md R83: HASEXT answers OK for every code on every view, and
false for everything but 'A' to 'Z'; the ranks of the codes R73 names, for `CHAR_W = 8`. -/
def Obligations.EveryNonLetterIsFalse : Prop :=
  (∀ (s : State) (bits : Word s.build.wordBits) (c : CharCode s.build.charW), s.view = .present bits →
    ∃ d, exec (.hasext c.toNat) s = .next { s with rsp := some (.ok d) } ∧ (d = 0 ∨ d = 1) ∧
      (c.toNat < 0x41 ∨ 0x5A < c.toNat → d = 0)) ∧
  [0x61#8, 0x40#8, 0x5B#8, 0x30#8, 0x00#8, 0xFF#8].map letterRank = [0x20#8, 0xFF#8, 26#8, 0xEF#8, 0xBF#8, 0xBE#8]

/-- spec/30_encoding.md R52: the rank is the wrapped difference of the whole code (R51), and the one unsigned
comparison is the two-sided range test, for every letter width of at least 7. -/
def Obligations.RankTestIsTwoSided : Prop :=
  ∀ (m : Nat) (c : CharCode m), 7 ≤ m →
    (letterRank c).toNat = (c.toNat + 2 ^ m - 0x41) % 2 ^ m ∧
    (rankInRange (letterRank c) = decide ((letterRank c).toNat ≤ 25)) ∧
    (rankInRange (letterRank c) = true ↔ 0x41 ≤ c.toNat ∧ c.toNat ≤ 0x5A)

/-- spec/30_encoding.md R53: the mask has exactly bit `rank` set, which is never shifted out. -/
def Obligations.MaskHasExactlyOneBit : Prop :=
  ∀ (b : Build) (rank : Nat), rank ≤ 25 →
    (extensionMask b.wordBits rank).toNat = 2 ^ rank ∧
    ∀ k, (extensionMask b.wordBits rank).getLsbD k = decide (k = rank)

/-- spec/42_bit_test_mux.md R74: a letter's answer depends on its own bit only, no code selects a bit above 25, and a
view whose width field is 0 is tested like any other. -/
def Obligations.HasextReadsOnlyItsOwnBit : Prop :=
  ∀ (s : State) (x y : Word s.build.wordBits) (c : CharCode s.build.charW),
    (∀ k ≤ 25, c.toNat = 0x41 + k → x.getLsbD k = y.getLsbD k) →
    ∃ d, exec (.hasext c.toNat) { s with view := .present x } = .next { s with view := .present x, rsp := some (.ok d) } ∧
      exec (.hasext c.toNat) { s with view := .present y } = .next { s with view := .present y, rsp := some (.ok d) }

/-! Answers, refusals, the fatal. -/

/-- spec/60_exceptions.md R84 and spec/30_encoding.md R45: the answer's status is the first check that applies, and
status code 3 is never produced. -/
def Obligations.AnswerStatusByFirstCheck : Prop :=
  (∀ (s : State) (i : Instr), i.wf s.build = true →
    ∃ v r, exec i s = .next { s with view := v, rsp := some r } ∧
      (r.status =
        if s.view = .halted then .fatal
        else if i.op = .capture then .ok
        else if s.view = .empty ∨ s.view = .absent then .noView
        else if i.op = .width ∧ ∃ bits, s.view = .present bits ∧ fieldValue bits = 0 then .fatal
        else .ok)) ∧
  Status.ok.code = 0#2 ∧ Status.noView.code = 1#2 ∧ Status.fatal.code = 2#2 ∧
  (∀ (n : Nat) (r : Response n), r.word.extractLsb' 0 2 ≠ 3#2)

/-- spec/60_exceptions.md R80: a query without a view is answered NO_VIEW and changes nothing else, CAPTURE never is,
and the next request is served as if the refused one had not been made. -/
def Obligations.QueryWithoutViewIsRefused : Prop :=
  (∀ (s : State) (i : Instr), s.view = .empty ∨ s.view = .absent → i.wf s.build = true → i.op.isQuery = true →
    exec i s = .next { s with rsp := some .noView } ∧
    ∀ j, exec j { s with rsp := some .noView } = exec j s) ∧
  (∀ (s t : State) (raw : Nat), exec (.capture raw) s = .next t → t.rsp ≠ some .noView)

/-- spec/60_exceptions.md R79: the entry of the fatal, and that no later request clears it. -/
def Obligations.FatalEntryHaltsTheBlock : Prop :=
  ∀ (s : State) (bits : Word s.build.wordBits), s.view = .present bits → fieldValue bits = 0 →
    ∃ t, exec .width s = .next t ∧ t = { s with view := .halted, rsp := some .fatal } ∧
      t.fatalOut = true ∧ t.presentOut = false ∧ ∀ i, i.wf t.build = true → exec i t = .next t

/-- spec/60_exceptions.md R78: only WIDTH on a view with a zero field raises the fatal, its one cause has code 1, and
nothing of the offending value is kept. -/
def Obligations.OnlyAZeroFieldRaisesTheFatal : Prop :=
  (∀ (s t : State) (i : Instr), s.view ≠ .halted → exec i s = .next t →
    (t.fatalOut = true ↔ i = .width ∧ ∃ bits, s.view = .present bits ∧ fieldValue bits = 0)) ∧
  (∀ cause : FatalCause, cause = .widthFieldZero ∧ cause.code = 1) ∧
  (∀ (s : State) (x y : Word s.build.wordBits), fieldValue x = 0 → fieldValue y = 0 →
    exec .width { s with view := .present x } = exec .width { s with view := .present y })

/-- spec/60_exceptions.md R81: while halted, every request is answered FATAL and changes nothing. -/
def Obligations.HaltedAnswersFatal : Prop :=
  ∀ (s : State) (i : Instr), s.view = .halted → i.wf s.build = true → exec i s = .next { s with rsp := some .fatal }

/-- No run without a reset leaves HALTED, whatever the host presents, and reset does (spec/60_exceptions.md R85).  What
the response port holds after a step without a request is the model's reading (log entry 4). -/
def Obligations.OnlyResetLeavesHalted : Prop :=
  (∀ (s : State) (n : Nat), s.view = .halted → .reset ∉ s.events →
    run n s = .next { s with
      rsp := if n = 0 then s.rsp else if n ≤ s.events.length then some .fatal else none
      events := s.events.drop n }) ∧
  (∀ s t : State, s.view = .halted → step s = .next t →
    (t.view = .halted ∧ ∀ rest, s.events ≠ .reset :: rest) ∨
    (t.view = .empty ∧ ∃ rest, s.events = .reset :: rest))

/-- After a fatal, reset, then the same value captured again: WIDTH raises the same fatal
(spec/70_reset_and_hazards.md R97). -/
def Obligations.SameValueHaltsAgain : Prop :=
  ∀ (s : State) (raw : Word s.build.wordBits) (rest : List (HostEvent s.build.reqBits)),
    s.view = .halted → raw ≠ 0 → fieldValue raw = 0 →
    s.events = .reset :: .request (encode s.build (.capture raw.toNat)) :: .request (encode s.build .width) :: rest →
      run 2 s = .next { s with
        view := .present raw
        rsp := some (.ok 1)
        events := .request (encode s.build .width) :: rest } ∧
      run 3 s = .next { s with view := .halted, rsp := some .fatal, events := rest }

/-- From reset, queries are refused NO_VIEW, however many, until a CAPTURE; after the CAPTURE of a nonzero value BITS
answers it (spec/70_reset_and_hazards.md R95, R99). -/
def Obligations.QueriesWaitForACapture : Prop :=
  ∀ (b : Build) (queries : List Instr) (raw : Word b.wordBits), queries ≠ [] →
    (∀ i ∈ queries, i.wf b = true ∧ i.op.isQuery = true) → raw ≠ 0 →
    (∀ rest, run queries.length
        { State.resetOf b with events := queries.map (fun i => .request (encode b i)) ++ rest } =
      .next { State.resetOf b with rsp := some .noView, events := rest }) ∧
    run (queries.length + 2)
        { State.resetOf b with
          events := (queries ++ [Instr.capture raw.toNat, Instr.bits]).map (fun i => .request (encode b i)) } =
      .next { State.resetOf b with view := .present raw, rsp := some (.ok raw) }

/-! The whole machine. -/

/-- Every request refines the reference equations that close spec/95_test_vectors.md. -/
def Obligations.ExecFollowsTheEquations : Prop :=
  ∀ (s : State) (i : Instr), i.wf s.build = true →
    exec i s = .next { s with view := (refStep s.view i).1, rsp := some (refStep s.view i).2 }

/-- A run over the host's requests is the fold of the reference equations, in the host's order, one answer a request
(spec/20_memory.md R35). -/
def Obligations.RunIsTheFoldOfTheRequests : Prop :=
  ∀ (s : State) (words : List (Word s.build.reqBits)) (rest : List (HostEvent s.build.reqBits)) (k : Nat),
    k < words.length → s.events = words.map .request ++ rest →
      run (k + 1) s = .next { s with
        view := (refRun s.view ((words.take (k + 1)).map (decodeWord s.build))).1
        rsp := (refRun s.view (words.map (decodeWord s.build))).2[k]?
        events := (words.drop (k + 1)).map .request ++ rest }

/-- spec/10_state.md R14: who writes the slot, and to what.  A step leaves it alone, or resets it, or captures into it,
or halts it on a zero width field. -/
def Obligations.OnlyCaptureFatalAndResetWriteTheSlot : Prop :=
  ∀ s t : State, step s = .next t →
    (∃ x, t = { s with rsp := x, events := s.events.tail }) ∨
    (t = { s with view := .empty, rsp := none, events := s.events.tail } ∧ ∃ rest, s.events = .reset :: rest) ∨
    (∃ q rest, s.events = .request q :: rest ∧ s.view ≠ .halted ∧
      ((∃ raw : Word s.build.wordBits, decodeWord s.build q = .capture raw.toNat ∧ raw ≠ 0 ∧
          t = { s with view := .present raw, rsp := some (.ok 1), events := rest }) ∨
        (decodeWord s.build q = .capture 0 ∧ t = { s with view := .absent, rsp := some (.ok 0), events := rest }) ∨
        (decodeWord s.build q = .width ∧ (∃ bits, s.view = .present bits ∧ fieldValue bits = 0) ∧
          t = { s with view := .halted, rsp := some .fatal, events := rest })))

/-- A step from a safe state is safe exactly when it is no WIDTH on a zero width field (spec/60_exceptions.md R77, R79). -/
def Obligations.SafeStepsAreThoseThatDoNotRaise : Prop :=
  ∀ s t : State, s.safe → step s = .next t →
    (t.safe ↔ ¬∃ q rest, s.events = .request q :: rest ∧ decodeWord s.build q = .width ∧
      ∃ bits, s.view = .present bits ∧ fieldValue bits = 0)

/-- The frame of the requests: CAPTURE writes the slot and the response port only; BITS and HASEXT, and WIDTH unless it
raises the fatal, write the response port only (spec/10_state.md R14, spec/00_scope.md R11). -/
def Obligations.RequestFrames : Prop :=
  ∀ (s t : State) (i : Instr), exec i s = .next t →
    (∃ v r, t = { s with view := v, rsp := some r }) ∧
    (i.op = .bits ∨ i.op = .hasext ∨ (i.op = .width ∧ ∀ bits, s.view = .present bits → fieldValue bits ≠ 0) →
      ∃ r, t = { s with rsp := some r })

/-- spec/00_scope.md R11: the answer and the next slot value are functions of the slot and the request alone, and a
query that does not raise writes no state and, repeated, gets the same answer. -/
def Obligations.AnswersDependOnSlotAndRequestOnly : Prop :=
  (∀ (s : State) (i : Instr) (x : Option (Response s.build.wordBits)) (es : List (HostEvent s.build.reqBits))
      (v : View s.build.wordBits) (r : Response s.build.wordBits),
    exec i s = .next { s with view := v, rsp := some r } →
      exec i { s with rsp := x, events := es } = .next { s with view := v, rsp := some r, events := es }) ∧
  (∀ (s t : State) (i : Instr), i.op.isQuery = true → exec i s = .next t → t.fatalOut = false →
    (∃ r, t = { s with rsp := some r }) ∧ exec i t = .next t)

/-- Two queries that do not raise, issued against the same slot, may be exchanged (spec/20_memory.md R36). -/
def Obligations.QueriesCommute : Prop :=
  ∀ (s : State) (i j : Instr), i.wf s.build = true → j.wf s.build = true → i.op.isQuery = true →
    j.op.isQuery = true → (∀ bits, s.view = .present bits → i = .width ∨ j = .width → fieldValue bits ≠ 0) →
    ∃ ri rj, exec i s = .next { s with rsp := some ri } ∧ exec j { s with rsp := some ri } = .next { s with rsp := some rj } ∧
      exec j s = .next { s with rsp := some rj } ∧ exec i { s with rsp := some rj } = .next { s with rsp := some ri }

/-- spec/10_state.md R22: bits `[W-3:26]` change no answer of WIDTH and of HASEXT, and BITS returns them. -/
def Obligations.MiddleBitsPassThrough : Prop :=
  ∀ (s : State) (x y : Word s.build.wordBits),
    (∀ k, k ≤ 25 ∨ s.build.wordBits - 2 ≤ k → x.getLsbD k = y.getLsbD k) →
    (∀ i, i.wf s.build = true → i.op = .width ∨ i.op = .hasext → ∃ r,
      (∃ v, exec i { s with view := .present x } = .next { s with view := v, rsp := some r }) ∧
      (∃ v, exec i { s with view := .present y } = .next { s with view := v, rsp := some r })) ∧
    exec .bits { s with view := .present x } = .next { s with view := .present x, rsp := some (.ok x) } ∧
    (s.view ≠ .halted → (∃ k, 26 ≤ k ∧ k ≤ s.build.wordBits - 3 ∧ x.getLsbD k = true) →
      exec (.capture x.toNat) s = .next { s with view := .present x, rsp := some (.ok 1) })

/-- The data of an OK answer, by operation, in a state that meets the invariant (spec/30_encoding.md R46). -/
def Obligations.OkDataByOperation : Prop :=
  ∀ (s t : State) (i : Instr) (d : Word t.build.wordBits), s.Inv → exec i s = .next t → t.rsp = some (.ok d) →
    match i.op with
    | .capture => d = if t.presentOut then 1 else 0
    | .bits => d ≠ 0 ∧ t.view = .present d
    | .width => d = 1 ∨ d = 2 ∨ d = 3
    | .hasext => d = 0 ∨ d = 1

/-- spec/10_state.md R15: the two outputs are functions of the slot. -/
def Obligations.OutputsFollowTheSlot : Prop :=
  ∀ s : State, (s.presentOut = true ↔ ∃ bits, s.view = .present bits) ∧ (s.fatalOut = true ↔ s.view = .halted) ∧
    ∀ x es, State.presentOut { s with rsp := x, events := es } = s.presentOut ∧
      State.fatalOut { s with rsp := x, events := es } = s.fatalOut

/-- The state after reset meets the invariant, for every build. -/
def Obligations.ResetMeetsTheInvariant : Prop := ∀ b : Build, (State.resetOf b).Inv

/-- Every step keeps the invariant: a PRESENT payload is nonzero, and the answer on the response port goes with the
slot (spec/10_state.md R13, spec/60_exceptions.md R79 to R84). -/
def Obligations.StepKeepsTheInvariant : Prop :=
  ∀ s t : State, s.Inv → step s = .next t → t.Inv

/-- The last of the equations of spec/95_test_vectors.md: a view can be reached from reset exactly when it is not
zero. -/
def Obligations.PresentIsReachableIffNonzero : Prop :=
  ∀ (b : Build) (bits : Word b.wordBits),
    (∃ (events rest : List (HostEvent b.reqBits)) (n : Nat) (x : Option (Response b.wordBits)),
      run n { State.resetOf b with events := events } =
        .next { State.resetOf b with view := .present bits, rsp := x, events := rest }) ↔ bits ≠ 0

/-- A platform has at least one block (spec/00_scope.md R7), and a step of one of them always completes, is that block's own step, and leaves every other block as it
was (spec/60_exceptions.md R92).  Which block steps is an argument, the model's choice (log entry 10). -/
def Obligations.PlatformBlocksAreIndependent : Prop :=
  ∀ (n : Nat) (p : Platform n), 1 ≤ n ∧ ∀ k : Fin n, ∃ p' : Platform n, p.stepBlock k = .next p' ∧
    step p.blocks[k] = .next p'.blocks[k] ∧ ∀ j : Fin n, j ≠ k → p'.blocks[j] = p.blocks[j]

/-- Writing a request as text and reading it gives the request back (spec/30_encoding.md R57; the spellings are the
model's choice, log entry 11). -/
def Obligations.TextOfARequestReadsBack : Prop :=
  ∀ (b : Build) (i : Instr), i.wf b = true → readRequest b (requestText b i) = some i
end

