-- ==== Sys2Proof/Laws/Decode.lean ====
section
/-! SUPPORT. The fields of a packed request word, and the operation numbers. -/

namespace Sys2Proof

@[simp] theorem ofCode_code (o : Op) : Op.ofCode o.code = o := by cases o <;> rfl

@[simp] theorem code_ofCode (c : BitVec 2) : (Op.ofCode c).code = c := by
  revert c; decide

/-- A build's word is at least 32 bits wide, so the whole bitmap lies in it. -/
theorem wordBits_ge (b : Build) : 32 ≤ b.wordBits := by
  cases h : b.width <;> simp [Build.wordBits, h, WordWidth.bits]

@[simp] theorem reqOp_packRequest (b : Build) (raw : Word b.wordBits) (c : CharCode b.charW) (o : BitVec 2) :
    reqOp (b := b) (packRequest b raw c o) = o := by
  ext i hi
  simp [reqOp, slice, packRequest, BitVec.getLsbD_append, hi]

@[simp] theorem reqLetter_packRequest (b : Build) (raw : Word b.wordBits) (c : CharCode b.charW) (o : BitVec 2) :
    reqLetter (b := b) (packRequest b raw c o) = c := by
  ext i hi
  simp only [reqLetter, slice, packRequest, BitVec.getElem_extractLsb', BitVec.getLsbD_append]
  rw [if_neg (by omega), if_pos (by omega), show 2 + i - 2 = i by omega, BitVec.getLsbD_eq_getElem hi]

@[simp] theorem reqRaw_packRequest (b : Build) (raw : Word b.wordBits) (c : CharCode b.charW) (o : BitVec 2) :
    reqRaw (b := b) (packRequest b raw c o) = raw := by
  ext i hi
  simp only [reqRaw, slice, packRequest, BitVec.getElem_extractLsb', BitVec.getLsbD_append]
  rw [if_neg (by omega), if_neg (by omega), show b.charW + 2 + i - 2 - b.charW = i by omega,
    BitVec.getLsbD_eq_getElem hi]

/-- What the decoder answers for a packed word. -/
theorem decodeWord_packRequest (b : Build) (raw : Word b.wordBits) (c : CharCode b.charW) (o : Op) :
    decodeWord b (packRequest b raw c o.code) =
      match o with
      | .capture => .capture raw.toNat
      | .bits => .bits
      | .width => .width
      | .hasext => .hasext c.toNat := by
  cases o <;> simp [decodeWord]

/-- What the decoder answers, by the operation field of the word. -/
theorem decodeWord_cases (b : Build) (q : Word b.reqBits) :
    (reqOp q = 0#2 ∧ decodeWord b q = .capture (reqRaw q).toNat) ∨ (reqOp q = 1#2 ∧ decodeWord b q = .bits) ∨
    (reqOp q = 2#2 ∧ decodeWord b q = .width) ∨ (reqOp q = 3#2 ∧ decodeWord b q = .hasext (reqLetter q).toNat) := by
  have h : ∀ o : BitVec 2, o = 0#2 ∨ o = 1#2 ∨ o = 2#2 ∨ o = 3#2 := by decide
  rcases h (reqOp q) with h | h | h | h <;> simp [decodeWord, Op.ofCode, h]

end Sys2Proof
end

