-- ==== Sys2Proof/Laws/Operands.lean ====
section
/-! SUPPORT. Small facts about operand decode and result codes. -/

namespace Sys2Proof.Machine

@[simp] theorem construct_zero (n : Nat) : View.construct 0#n = .absent := by simp [View.construct]

theorem construct_nonzero {n : Nat} {raw : Word n} (h : raw ≠ 0) : View.construct raw = .present raw := if_neg h

@[simp] theorem boolData_false (n : Nat) : boolData n false = 0 := by simp [boolData, zext]

@[simp] theorem boolData_true (n : Nat) : boolData n true = 1 := by
  ext i hi
  have h1 : (1 : Word n) = 1#n := rfl
  rw [h1]
  simp [boolData, zext, BitVec.getElem_one, BitVec.getElem_setWidth]

/-- The width field as a number. -/
theorem widthField_toNat {n : Nat} (hn : 2 ≤ n) (bits : Word n) :
    (widthField bits).toNat = bits.toNat / 2 ^ (n - 2) := by
  have h : bits.toNat / 2 ^ (n - 2) < 4 := by
    rw [Nat.div_lt_iff_lt_mul (Nat.two_pow_pos _)]
    have := bits.isLt
    rwa [show (4 : Nat) = 2 ^ 2 from rfl, ← Nat.pow_add, show 2 + (n - 2) = n by omega]
  simp only [widthField, slice, BitVec.extractLsb'_toNat, Nat.shiftRight_eq_div_pow]
  exact Nat.mod_eq_of_lt h

/-- What the class of a field is, with the code it is answered by. -/
theorem ofField_cases (f : BitVec 2) :
    (f = 0#2 ∧ WidthClass.ofField f = none) ∨ (f ≠ 0#2 ∧ ∃ wc, WidthClass.ofField f = some wc ∧ wc.code = f) := by
  have h : ∀ o : BitVec 2, o = 0#2 ∨ o = 1#2 ∨ o = 2#2 ∨ o = 3#2 := by decide
  rcases h f with rfl | rfl | rfl | rfl <;> simp [WidthClass.ofField, WidthClass.code]

@[simp] theorem hasExtension_out_of_range {n m : Nat} (bits : Word n) (c : CharCode m)
    (h : rankInRange (letterRank c) = false) : hasExtension bits c = false := by
  simp [hasExtension, h]

theorem hasExtension_in_range {n m : Nat} (bits : Word n) (c : CharCode m) (h : rankInRange (letterRank c) = true) :
    hasExtension bits c = decide (bits &&& extensionMask n (letterRank c).toNat ≠ 0) := by
  simp [hasExtension, h]

end Sys2Proof.Machine
end

