-- ==== Sys2Proof/Laws/State.lean ====
section
/-! SUPPORT. What each operation over the state does to each of its fields. -/

namespace Sys2Proof.Machine

@[simp] theorem respond_build (s : State) (r : Response s.build.wordBits) : (respond s r).build = s.build := rfl
@[simp] theorem respond_view (s : State) (r : Response s.build.wordBits) : (respond s r).view = s.view := rfl
@[simp] theorem respond_rsp (s : State) (r : Response s.build.wordBits) : (respond s r).rsp = some r := rfl
@[simp] theorem respond_events (s : State) (r : Response s.build.wordBits) : (respond s r).events = s.events := rfl

@[simp] theorem setView_build (s : State) (v : View s.build.wordBits) : (setView s v).build = s.build := rfl
@[simp] theorem setView_view (s : State) (v : View s.build.wordBits) : (setView s v).view = v := rfl
@[simp] theorem setView_rsp (s : State) (v : View s.build.wordBits) : (setView s v).rsp = s.rsp := rfl
@[simp] theorem setView_events (s : State) (v : View s.build.wordBits) : (setView s v).events = s.events := rfl

@[simp] theorem refuseNoView_build (s : State) : (refuseNoView s).build = s.build := rfl
@[simp] theorem refuseNoView_view (s : State) : (refuseNoView s).view = s.view := rfl
@[simp] theorem refuseNoView_rsp (s : State) : (refuseNoView s).rsp = some .noView := rfl
@[simp] theorem refuseNoView_events (s : State) : (refuseNoView s).events = s.events := rfl

@[simp] theorem answerHalted_build (s : State) : (answerHalted s).build = s.build := rfl
@[simp] theorem answerHalted_view (s : State) : (answerHalted s).view = s.view := rfl
@[simp] theorem answerHalted_rsp (s : State) : (answerHalted s).rsp = some .fatal := rfl
@[simp] theorem answerHalted_events (s : State) : (answerHalted s).events = s.events := rfl

@[simp] theorem raiseFatal_build (c : FatalCause) (s : State) : (raiseFatal c s).build = s.build := rfl
@[simp] theorem raiseFatal_view (c : FatalCause) (s : State) : (raiseFatal c s).view = .halted := rfl
@[simp] theorem raiseFatal_rsp (c : FatalCause) (s : State) : (raiseFatal c s).rsp = some .fatal := rfl
@[simp] theorem raiseFatal_events (c : FatalCause) (s : State) : (raiseFatal c s).events = s.events := rfl

@[simp] theorem recordCapture_build (s : State) (raw : Word s.build.wordBits) : (recordCapture s raw).build = s.build := rfl
@[simp] theorem recordCapture_view (s : State) (raw : Word s.build.wordBits) : (recordCapture s raw).view = View.construct raw := rfl
@[simp] theorem recordCapture_rsp (s : State) (raw : Word s.build.wordBits) : (recordCapture s raw).rsp = some (.ok (boolData s.build.wordBits (View.construct raw).isPresent)) := rfl
@[simp] theorem recordCapture_events (s : State) (raw : Word s.build.wordBits) : (recordCapture s raw).events = s.events := rfl

@[simp] theorem applyReset_build (s : State) : (applyReset s).build = s.build := rfl
@[simp] theorem applyReset_view (s : State) : (applyReset s).view = .empty := rfl
@[simp] theorem applyReset_rsp (s : State) : (applyReset s).rsp = none := rfl
@[simp] theorem applyReset_events (s : State) : (applyReset s).events = s.events := rfl

@[simp] theorem idle_build (s : State) : (idle s).build = s.build := rfl
@[simp] theorem idle_view (s : State) : (idle s).view = s.view := rfl
@[simp] theorem idle_rsp (s : State) : (idle s).rsp = none := rfl
@[simp] theorem idle_events (s : State) : (idle s).events = s.events := rfl

@[simp] theorem presentWord_build (s : State) (w : Word s.build.reqBits) : (presentWord s w).build = s.build := rfl
@[simp] theorem presentWord_view (s : State) (w : Word s.build.reqBits) : (presentWord s w).view = s.view := rfl
@[simp] theorem presentWord_rsp (s : State) (w : Word s.build.reqBits) : (presentWord s w).rsp = s.rsp := rfl
@[simp] theorem presentWord_events (s : State) (w : Word s.build.reqBits) : (presentWord s w).events = .request w :: s.events := rfl

@[simp] theorem State.resetOf_build (b : Build) : (State.resetOf b).build = b := rfl
@[simp] theorem State.resetOf_view (b : Build) : (State.resetOf b).view = .empty := rfl
@[simp] theorem State.resetOf_rsp (b : Build) : (State.resetOf b).rsp = none := rfl
@[simp] theorem State.resetOf_events (b : Build) : (State.resetOf b).events = [] := rfl

@[simp] theorem presentOut_eq (s : State) : s.presentOut = s.view.isPresent := rfl
@[simp] theorem fatalOut_eq (s : State) : s.fatalOut = s.view.isHalted := rfl

@[simp] theorem isPresent_empty (n : Nat) : (View.empty : View n).isPresent = false := rfl
@[simp] theorem isPresent_absent (n : Nat) : (View.absent : View n).isPresent = false := rfl
@[simp] theorem isPresent_present (n : Nat) (x : Word n) : (View.present x).isPresent = true := rfl
@[simp] theorem isPresent_halted (n : Nat) : (View.halted : View n).isPresent = false := rfl
@[simp] theorem isHalted_empty (n : Nat) : (View.empty : View n).isHalted = false := rfl
@[simp] theorem isHalted_absent (n : Nat) : (View.absent : View n).isHalted = false := rfl
@[simp] theorem isHalted_present (n : Nat) (x : Word n) : (View.present x).isHalted = false := rfl
@[simp] theorem isHalted_halted (n : Nat) : (View.halted : View n).isHalted = true := rfl

end Sys2Proof.Machine
end

