-- ==== Sys2Proof/Laws/Ops.lean ====
section
/-! SUPPORT. Everything a shared operation can do, said once. -/

namespace Sys2Proof.Machine

/-- A query on each slot value. -/
theorem serveQuery_of_halted {s : State} (h : s.view = .halted) (k : Word s.build.wordBits → State) :
    serveQuery s k = answerHalted s := by simp [serveQuery, h]

theorem serveQuery_of_empty {s : State} (h : s.view = .empty) (k : Word s.build.wordBits → State) :
    serveQuery s k = refuseNoView s := by simp [serveQuery, h]

theorem serveQuery_of_absent {s : State} (h : s.view = .absent) (k : Word s.build.wordBits → State) :
    serveQuery s k = refuseNoView s := by simp [serveQuery, h]

theorem serveQuery_of_present {s : State} {bits : Word s.build.wordBits} (h : s.view = .present bits)
    (k : Word s.build.wordBits → State) : serveQuery s k = k bits := by simp [serveQuery, h]

/-- A query answers FATAL, NO_VIEW, or what its operation makes of the view. -/
theorem serveQuery_cases (s : State) (k : Word s.build.wordBits → State) :
    (s.view = .halted ∧ serveQuery s k = answerHalted s) ∨
    ((s.view = .empty ∨ s.view = .absent) ∧ serveQuery s k = refuseNoView s) ∨
    ∃ bits, s.view = .present bits ∧ serveQuery s k = k bits := by
  cases h : s.view <;> simp [serveQuery, h]

/-- A capture answers FATAL while halted, and otherwise records the value. -/
theorem serveCapture_cases (s : State) (raw : Word s.build.wordBits) :
    (s.view = .halted ∧ serveCapture s raw = answerHalted s) ∨
    (s.view ≠ .halted ∧ serveCapture s raw = recordCapture s raw) := by
  cases h : s.view <;> simp [serveCapture, h]

/-- A raw value on its own lines always fits. -/
theorem execCapture_word (s : State) (raw : Word s.build.wordBits) :
    exec (.capture raw.toNat) s = .next (serveCapture s raw) := by
  simp [exec, execCapture, raw.isLt]

/-- A letter on its own lines always fits. -/
theorem execHasext_word (s : State) (c : CharCode s.build.charW) :
    exec (.hasext c.toNat) s =
      .next (serveQuery s fun bits => respond s (.ok (boolData s.build.wordBits (hasExtension bits c)))) := by
  simp [exec, execHasext, c.isLt]

theorem fetch_nothing {s : State} (h : s.events = []) : fetch s = .nothing := by simp [fetch, h]

theorem fetch_reset {s : State} {rest : List (HostEvent s.build.reqBits)} (h : s.events = .reset :: rest) :
    fetch s = .reset { s with events := rest } := by simp [fetch, h]

theorem fetch_request {s : State} {q : Word s.build.reqBits} {rest : List (HostEvent s.build.reqBits)}
    (h : s.events = .request q :: rest) :
    fetch s = .request (decodeWord s.build q) { s with events := rest } := by simp [fetch, h]

end Sys2Proof.Machine
end

