-- ==== Sys2Proof/Laws/PerInstr.lean ====
section
/-! SUPPORT. Families of per-request facts (LAWS.json): `OpcodeField`, that the canonical word of a request carries the
number of its operation in its low bits (spec/30_encoding.md R42, R43). -/

namespace Sys2Proof.Laws.OpcodeField

/-- The operation field of the request's canonical word, for every build. -/
def Statement (i : Instr) : Prop := ∀ b : Build, reqOp (encode b i) = i.op.code

theorem capture (raw : Nat) : Statement (.capture raw) := fun _ => reqOp_packRequest ..

theorem bits : Statement .bits := fun _ => reqOp_packRequest ..

theorem width : Statement .width := fun _ => reqOp_packRequest ..

theorem hasext (letter : Nat) : Statement (.hasext letter) := fun _ => reqOp_packRequest ..

end Sys2Proof.Laws.OpcodeField
end

