-- ==== Sys2Proof/Laws/Platform.lean ====
section
/-! SUPPORT. What a step of one block does to a platform. -/

namespace Sys2Proof.Machine

@[simp] theorem Platform.reset_blocks {n : Nat} (builds : Vector Build n) (h : 1 ≤ n) :
    (Platform.reset builds h).blocks = builds.map State.resetOf := rfl

/-- A step of block `k` puts the state that block's own step gives in its place. -/
theorem Platform.stepBlock_of_step {n : Nat} {p : Platform n} {k : Fin n} {s : State}
    (h : step p.blocks[k] = .next s) : p.stepBlock k = .next { p with blocks := p.blocks.set k s } := by
  simp only [Platform.stepBlock, h]

end Sys2Proof.Machine
end

