-- ==== Sys2Proof/Tests/Slice0.lean ====
section
/-! SUPPORT. Tests, with their expected results from spec/95_test_vectors.md or read off the rule they name, and for
every statement with hypotheses a concrete input that meets them. -/

namespace Sys2Proof.Tests

open Sys2Proof.Machine

/-! Builds and small states. -/

def b32 : Build := Build.default
def b64 : Build := ⟨.w64, 8, by decide⟩
def b128 : Build := ⟨.w128, 8, by decide⟩

/-- A state of a build with a slot value and nothing else. -/
def slot (b : Build) (v : View b.wordBits) : State := { State.resetOf b with view := v }

/-- A state of the default build with a slot value and one event. -/
def slotEvent (v : View 32) (e : HostEvent 42) : State := { slot b32 v with events := [e] }

/-! Decoding: words of spec/95_test_vectors.md V5, P1, P4, P5 (bits from spec/30_encoding.md R42, R43). -/

theorem test_decode_capture : decodeTableWord 48 0x20000000400 = some (.capture 0x80000001) := by decide
theorem test_decode_capture_zero : decodeTableWord 48 0x0 = some (.capture 0) := by decide
theorem test_decode_bits : decodeTableWord 48 0x1 = some .bits := by decide
theorem test_decode_width : decodeTableWord 48 0x2 = some .width := by decide
theorem test_decode_hasext_F : decodeTableWord 48 0x11B = some (.hasext 0x46) := by decide
theorem test_decode_noncanonical_width : decodeTableWord 48 0x3FFFFFFFFFE = some .width := by decide
theorem test_decode_short_row : decodeTableWord 8 0x3 = some (.hasext 0) := by decide
theorem test_decode_too_wide : decodeNat b32 0x40000000000 = .error .wordTooWide := by decide
theorem test_decode_capture_64 : decodeWord b64 0x200000000005044B400 = .capture 0x800000000014112D := by decide
theorem test_decode_capture_128 : decodeWord b128 0x30000000000000000000000000800000000 =
    .capture 0xC0000000000000000000000002000000 := by decide

theorem test_encode_capture : (encode b32 (.capture 0x40001105)).toNat = 0x10000441400 := by decide
theorem test_encode_hasext_Z : (encode b64 (.hasext 0x5A)).toNat = 0x16B := by decide

theorem test_table_word_runs :
    step (State.reset.withFetchWord 48 0x20000000400) = .next (respond (slot b32 (.present 0x80000001#32)) (.ok 1)) := rfl

/-! Well-formedness: each check refuses an ill-formed request, and takes the largest operand that fits. -/

theorem test_wf_capture_too_wide : (Instr.capture (2 ^ 32)).wf b32 = false := by decide
theorem test_wf_hasext_too_wide : (Instr.hasext 256).wf b32 = false := by decide
theorem test_wf_capture_max : (Instr.capture (2 ^ 64 - 1)).wf b64 = true := by decide
theorem test_wf_hasext_max : (Instr.hasext 255).wf b32 = true := by decide

/-! CAPTURE (V1, V4). -/

theorem test_capture_zero_replaces_a_view :
    exec (.capture 0) (slot b32 (.present 0x80000001#32)) = .next (respond (slot b32 .absent) (.ok 0)) := rfl
theorem test_capture_bit_32_of_64 :
    exec (.capture 0x100000000) (slot b64 .empty) = .next (respond (slot b64 (.present 0x100000000#64)) (.ok 1)) := rfl

/-! BITS (V2, V4). -/

theorem test_bits_with_zero_field :
    exec .bits (slot b32 (.present 0x04000000#32)) =
      .next (respond (slot b32 (.present 0x04000000#32)) (.ok 0x04000000#32)) := rfl
theorem test_bits_halted : exec .bits (slot b32 .halted) = .next (respond (slot b32 .halted) .fatal) := rfl

/-! WIDTH (V2, S8). -/

theorem test_width_source_example :
    exec .width (slot b32 (.present 0x80000001#32)) = .next (respond (slot b32 (.present 0x80000001#32)) (.ok 2)) := rfl
theorem test_width_zero_extended_value_halts :
    exec .width (slot b64 (.present 0x80000001#64)) = .next (respond (slot b64 .halted) .fatal) := rfl

/-! HASEXT (V3, V4). -/

theorem test_hasext_left_shift :
    exec (.hasext 0x42) (slot b32 (.present 0x80000002#32)) =
      .next (respond (slot b32 (.present 0x80000002#32)) (.ok 1)) := rfl
theorem test_hasext_no_case_folding :
    exec (.hasext 0x61) (slot b32 (.present 0xFFFFFFFF#32)) =
      .next (respond (slot b32 (.present 0xFFFFFFFF#32)) (.ok 0)) := rfl
theorem test_hasext_priority_of_no_view :
    exec (.hasext 0x61) (slot b32 .empty) = .next (respond (slot b32 .empty) .noView) := rfl

/-! Response words and outputs (V5, P3). -/

theorem test_response_words :
    (Response.ok 0x80000001#32).word = 0x200000004#34 ∧ (Response.noView : Response 32).word = 0x1#34 ∧
      (Response.fatal : Response 32).word = 0x2#34 := by decide
theorem test_response_word_on_the_port :
    (respond (slot b32 .absent) (.ok 2)).rspWord = some 0x8#34 := rfl
theorem test_outputs_after_the_fatal :
    (slot b32 .halted).presentOut = false ∧ (slot b32 .halted).fatalOut = true := by decide

/-! Text (spec/30_encoding.md R57, spec/00_scope.md R8). -/

theorem test_text_capture : readRequest b32 "CAPTURE 0x80000001 ; the source's example".toList = some (.capture 0x80000001) := by
  decide
theorem test_text_sized_literal : readRequest b32 "CAPTURE 32'hFF".toList = some (.capture 255) := by decide
theorem test_text_hasext_quoted : readRequest b32 "HASEXT 'A'".toList = some (.hasext 0x41) := by decide
theorem test_text_hasext_code : readRequest b32 "HASEXT 0b100_0001".toList = some (.hasext 0x41) := by decide
theorem test_text_too_wide : readRequest b32 "CAPTURE 0x100000000".toList = none := by decide
theorem test_text_request : requestText b32 (.capture 0x21) = "CAPTURE 0x00000021".toList := by decide
theorem test_text_responses :
    readableResponseText .width (.ok 2 : Response 32) = "-> OK 64-bit".toList ∧
      responseText (.ok 0x21 : Response 32) = "-> OK 0x00000021".toList ∧
      readableResponseText .bits (.noView : Response 32) = "-> NO_VIEW".toList := by decide

/-- Every answer's data is written in `W/4` digits, the model's choice (log entry 11). -/
theorem test_text_of_an_ok_answer : responseText (.ok 0x80000001 : Response 32) = "-> OK 0x80000001".toList := by decide

/-! A platform of one block (spec/00_scope.md R7). -/

theorem test_platform_single : ∀ k : Fin Config.defaultInstances, Platform.single.blocks[k] = State.reset := by
  intro k
  simp [Platform.single, Platform.reset, State.reset]

/-! The state after reset is the one of the default build. -/

theorem test_reset : State.reset = State.resetOf Build.default := rfl

/-! Witnesses: for each statement with hypotheses, an input that meets them together, by the statement's name. -/

def f32 : Word 32 := 0x21#32      -- width field 0, bits 0 and 5 (P3)
def g32 : Word 32 := 0x80000001#32 -- width field 2, bit 0 (S8)

theorem witness_ResetEventRestartsTheBlock :
    (slotEvent .halted .reset).events = .reset :: [] := rfl
theorem witness_IdleStepKeepsTheSlot : (slot b32 (.present g32)).events = [] := rfl
theorem witness_StepRunsTheDecodedRequest :
    (slotEvent (.present g32) (.request 0x2#42)).events = .request 0x2#42 :: [] := rfl
theorem witness_EveryRequestIsAnsweredByOneWord_request :
    (slotEvent .halted (.request 0x1#42)).events = .request 0x1#42 :: [] := rfl
theorem witness_EveryRequestIsAnsweredByOneWord_none :
    (∀ q rest, (slot b32 (.present g32)).events ≠ .request q :: rest) ∧
      step (slot b32 (.present g32)) = .next (slot b32 (.present g32)) :=
  ⟨(fun _ _ h => nomatch h), rfl⟩
theorem witness_DecodeOfEncodeIsTheRequest :
    (Instr.capture (2 ^ 128 - 1)).wf b128 = true ∧ (Instr.hasext 255).wf b128 = true := by decide
theorem witness_EveryWordSelectsOneRow : (⟨.hasext, 0x3, 0x3⟩ : OpcodeRow) ∈ opcodeRows := by decide
theorem witness_IgnoredFieldsHaveNoEffect_capture :
    reqOp (b := b32) 0x20000000400#42 = reqOp (b := b32) 0x200000007FC#42 ∧
      reqRaw (b := b32) 0x20000000400#42 = reqRaw (b := b32) 0x200000007FC#42 ∧
      reqOp (b := b32) 0x20000000400#42 = 0#2 := by decide
theorem witness_IgnoredFieldsHaveNoEffect_hasext :
    reqOp (b := b32) 0x107#42 = reqOp (b := b32) 0x3FFFFFFFD07#42 ∧
      reqLetter (b := b32) 0x107#42 = reqLetter (b := b32) 0x3FFFFFFFD07#42 ∧
      reqOp (b := b32) 0x107#42 = 3#2 := by decide
theorem witness_OperandsTooWideAreRefused :
    (Instr.capture (2 ^ 32)).wf (slot b32 .empty).build = false ∧
      exec (.hasext 256) (slot b32 .halted) = .refused .operandTooWide := ⟨by decide, rfl⟩
theorem witness_CaptureRecordsTheRawValue :
    (slot b32 .empty).view ≠ .halted ∧
      exec (.capture g32.toNat) (slot b32 .empty) = .next (respond (slot b32 (.present g32)) (.ok 1)) ∧
      reqOp (b := b32) 0x20000000400#42 = 0#2 := ⟨by decide, rfl, by decide⟩
theorem witness_BitsReturnsTheView :
    (slot b32 (.present g32)).Inv ∧
      exec .bits (slot b32 (.present g32)) = .next (respond (slot b32 (.present g32)) (.ok g32)) ∧
      reqOp (b := b32) 0x1#42 = 1#2 :=
  ⟨⟨(by decide : g32 ≠ 0), fun _ h => nomatch h⟩, rfl, by decide⟩
theorem witness_CapturedBitsRoundTrip :
    (slot b32 .absent).view ≠ .halted ∧ f32 ≠ 0 ∧
      (∀ i ∈ [Instr.hasext 0x46, .bits], i.wf b32 = true ∧ i.op.isQuery = true ∧ (i = .width → fieldValue f32 ≠ 0)) ∧
      ({ slot b32 .absent with events := [.request 0x8400#42, .request 0x11B#42, .request 0x1#42, .request 0x1#42] } :
        State).events =
        (Instr.capture f32.toNat :: [Instr.hasext 0x46, .bits] ++ [Instr.bits]).map (fun i => .request (encode b32 i)) ++ [] := by
  decide
theorem witness_WidthDecodesTheField :
    (slot b32 (.present f32)).view = .present f32 ∧
      exec .width (slot b32 (.present f32)) = .next (respond (slot b32 .halted) .fatal) ∧
      reqOp (b := b32) 0x2#42 = 2#2 := ⟨rfl, rfl, by decide⟩
theorem witness_WidthByTopHexDigit :
    [1#32, 0x3FFFFFFF#32, 0x40000000#32, 0x7FFFFFFF#32, 0x80000000#32, 0xBFFFFFFF#32, 0xC0000000#32, 0xFFFFFFFF#32].map
      (fun w => w.toNat / 2 ^ (b32.wordBits - 4)) = [0, 3, 4, 7, 8, 0xB, 0xC, 0xF] ∧
      (slot b32 (.present 0x3FFFFFFF#32)).view = .present 0x3FFFFFFF#32 := by decide
theorem witness_WidthReadsOnlyTheTopTwoBits :
    (0x80000000#32).getLsbD 31 = (0xBFFFFFFF#32).getLsbD 31 ∧
      (0x80000000#32).getLsbD 30 = (0xBFFFFFFF#32).getLsbD 30 := by decide
theorem witness_FatalValuesAreTheLowQuarter :
    (slot b32 .empty).view ≠ .halted ∧ 0x3FFFFFFF#32 ≠ 0 ∧ 0x40000000#32 ≠ 0 := by decide
theorem witness_ValuesOfAnotherWidth_narrower :
    32 ≤ b64.wordBits - 2 ∧
      (slot b64 (.present 0x40001105#64)).view = .present ((0x40001105#32).setWidth b64.wordBits) := by decide
theorem witness_ValuesOfAnotherWidth_wider :
    b32.wordBits < 64 ∧
      (slot b32 (.present 0x4014112D#32)).view = .present ((0x800000004014112D#64).setWidth b32.wordBits) ∧
      (0x800000004014112D#64).toNat / 2 ^ (b32.wordBits - 2) % 4 ≠ 0 := by decide
theorem witness_HasextTestsTheMaskedBit :
    0xFF = ((0x40#8).toNat + 2 ^ b32.charW - 0x41) % 2 ^ b32.charW ∧
      25 = ((0x5A#8).toNat + 2 ^ b32.charW - 0x41) % 2 ^ b32.charW ∧ reqOp (b := b32) 0x107#42 = 3#2 := by decide
theorem witness_HasextIsAMultiplexer :
    (slot b32 (.present g32)).view = .present g32 ∧
      (0x41 ≤ (0x41#8).toNat ∧ (0x41#8).toNat ≤ 0x5A) ∧ (0x41 ≤ (0x5A#8).toNat ∧ (0x5A#8).toNat ≤ 0x5A) ∧
      ¬(0x41 ≤ (0x40#8).toNat ∧ (0x40#8).toNat ≤ 0x5A) ∧ ¬(0x41 ≤ (0x5B#8).toNat ∧ (0x5B#8).toNat ≤ 0x5A) := by decide
theorem witness_EveryNonLetterIsFalse :
    (slot b32 (.present 0xFFFFFFFF#32)).view = .present 0xFFFFFFFF#32 ∧
      ((0x40#8).toNat < 0x41 ∨ 0x5A < (0x40#8).toNat) ∧ ((0x5B#8).toNat < 0x41 ∨ 0x5A < (0x5B#8).toNat) := by decide
theorem witness_RankTestIsTwoSided : 7 ≤ 7 ∧ rankInRange (letterRank 0x40#7) = false := by decide
theorem witness_MaskHasExactlyOneBit : 25 ≤ 25 ∧ (extensionMask b32.wordBits 25).toNat = 0x02000000 := by decide
theorem witness_HasextReadsOnlyItsOwnBit :
    ∀ k ≤ 25, (0x42#8).toNat = 0x41 + k → (0x80000002#32).getLsbD k = (0x00000003#32).getLsbD k := by decide
theorem witness_AnswerStatusByFirstCheck : (Instr.hasext 0x61).wf (slot b32 .empty).build = true := by decide
theorem witness_QueryWithoutViewIsRefused :
    (slot b32 .absent).view = .absent ∧ Instr.width.wf b32 = true ∧ Instr.width.op.isQuery = true ∧
      exec (.capture 5) (slot b32 .absent) = .next (respond (slot b32 (.present 5#32)) (.ok 1)) :=
  ⟨rfl, rfl, rfl, rfl⟩
theorem witness_FatalEntryHaltsTheBlock :
    (slot b32 (.present f32)).view = .present f32 ∧ fieldValue f32 = 0 ∧ Instr.bits.wf b32 = true := by decide
theorem witness_OnlyAZeroFieldRaisesTheFatal :
    (slot b32 (.present f32)).view ≠ .halted ∧
      exec .width (slot b32 (.present f32)) = .next (respond (slot b32 .halted) .fatal) ∧
      fieldValue f32 = 0 ∧ fieldValue 1#32 = 0 := ⟨by decide, rfl, by decide, by decide⟩
theorem witness_HaltedAnswersFatal :
    (slot b32 .halted).view = .halted ∧ (Instr.capture 0x80000001).wf b32 = true := by decide
theorem witness_OnlyResetLeavesHalted_run :
    (slotEvent .halted (.request 0x20000000400#42)).view = .halted ∧
      .reset ∉ (slotEvent .halted (.request 0x20000000400#42)).events := by decide
theorem witness_OnlyResetLeavesHalted_step :
    (slotEvent .halted .reset).view = .halted ∧
      step (slotEvent .halted .reset) = .next (slot b32 .empty) := ⟨rfl, rfl⟩
theorem witness_SameValueHaltsAgain :
    (slot b32 .halted).view = .halted ∧ f32 ≠ 0 ∧ fieldValue f32 = 0 ∧
      ({ slot b32 .halted with events := [.reset, .request 0x8400#42, .request 0x2#42] } : State).events =
        .reset :: .request (encode b32 (.capture f32.toNat)) :: .request (encode b32 .width) :: [] := by decide
theorem witness_QueriesWaitForACapture :
    [Instr.width, .hasext 0x41] ≠ [] ∧
      (∀ i ∈ [Instr.width, .hasext 0x41], i.wf b32 = true ∧ i.op.isQuery = true) ∧ g32 ≠ 0 := by decide
theorem witness_ExecFollowsTheEquations : (Instr.capture (2 ^ 32 - 1)).wf (slot b32 .halted).build = true := by decide
theorem witness_RunIsTheFoldOfTheRequests :
    1 < [0x8400#42, 0x2#42].length ∧
      ({ slot b32 .empty with events := [.request 0x8400#42, .request 0x2#42, .reset] } : State).events =
        [0x8400#42, 0x2#42].map .request ++ [.reset] := by decide
theorem witness_OnlyCaptureFatalAndResetWriteTheSlot :
    step (slotEvent (.present f32) (.request 0x2#42)) = .next (respond (slot b32 .halted) .fatal) := rfl
theorem witness_SafeStepsAreThoseThatDoNotRaise :
    (slotEvent (.present f32) (.request 0x2#42)).safe ∧
      step (slotEvent (.present f32) (.request 0x2#42)) = .next (respond (slot b32 .halted) .fatal) := ⟨rfl, rfl⟩
theorem witness_RequestFrames :
    exec .width (slot b32 (.present g32)) = .next (respond (slot b32 (.present g32)) (.ok 2)) ∧
      (Instr.width.op = .width ∧ ∀ bits, (slot b32 (.present g32)).view = .present bits → fieldValue bits ≠ 0) :=
  ⟨rfl, rfl, fun bits h => by cases h; decide⟩
theorem witness_AnswersDependOnSlotAndRequestOnly :
    exec .bits (slot b32 (.present g32)) = .next (respond (slot b32 (.present g32)) (.ok g32)) ∧
      Instr.bits.op.isQuery = true ∧ (respond (slot b32 (.present g32)) (.ok g32)).fatalOut = false := ⟨rfl, rfl, rfl⟩
theorem witness_QueriesCommute :
    Instr.width.wf b32 = true ∧ (Instr.hasext 0x41).wf b32 = true ∧ Instr.width.op.isQuery = true ∧
      (Instr.hasext 0x41).op.isQuery = true ∧
      ∀ bits, (slot b32 (.present g32)).view = .present bits →
        Instr.width = .width ∨ Instr.hasext 0x41 = .width → fieldValue bits ≠ 0 :=
  ⟨rfl, rfl, rfl, rfl, fun bits h _ => by cases h; decide⟩
theorem witness_MiddleBitsPassThrough :
    (∀ k, k ≤ 25 ∨ b32.wordBits - 2 ≤ k → (0xBC000001#32).getLsbD k = (0x80000001#32).getLsbD k) ∧
      Instr.width.wf b32 = true ∧ Instr.width.op = .width ∧ (slot b32 .empty).view ≠ .halted ∧
      26 ≤ 26 ∧ 26 ≤ b32.wordBits - 3 ∧ (0xBC000001#32).getLsbD 26 = true ∧ (0xBC000001#32).getLsbD 29 = true := by
  refine ⟨?_, by decide⟩
  intro k hk
  by_cases h : k < 32
  · have small : ∀ k < 32, k ≤ 25 ∨ 30 ≤ k → (0xBC000001#32).getLsbD k = (0x80000001#32).getLsbD k := by decide
    exact small k h hk
  · simp [BitVec.getLsbD_of_ge _ _ (Nat.le_of_not_lt h)]
theorem witness_OkDataByOperation :
    (slot b32 (.present g32)).Inv ∧
      exec .bits (slot b32 (.present g32)) = .next (respond (slot b32 (.present g32)) (.ok g32)) ∧
      (respond (slot b32 (.present g32)) (.ok g32)).rsp = some (.ok g32) :=
  ⟨⟨(by decide : g32 ≠ 0), fun _ h => nomatch h⟩, rfl, rfl⟩
theorem witness_OkDataByOperation_other :
    (slot b32 .empty).Inv ∧
      exec (.capture 0) (slot b32 .empty) = .next (respond (slot b32 .absent) (.ok 0)) ∧
      (slot b32 (.present 0xC0000001#32)).Inv ∧
      exec .width (slot b32 (.present 0xC0000001#32)) = .next (respond (slot b32 (.present 0xC0000001#32)) (.ok 3)) ∧
      exec (.hasext 0x41) (slot b32 (.present 0xC0000001#32)) =
        .next (respond (slot b32 (.present 0xC0000001#32)) (.ok 1)) :=
  ⟨⟨trivial, fun _ h => nomatch h⟩, rfl, ⟨(by decide : 0xC0000001#32 ≠ 0), fun _ h => nomatch h⟩, rfl, rfl⟩
theorem witness_StepKeepsTheInvariant :
    (slotEvent (.present f32) (.request 0x2#42)).Inv ∧
      step (slotEvent (.present f32) (.request 0x2#42)) = .next (respond (slot b32 .halted) .fatal) :=
  ⟨⟨(by decide : f32 ≠ 0), fun _ h => nomatch h⟩, rfl⟩
theorem witness_PresentIsReachableIffNonzero :
    run 1 (slotEvent .empty (.request 0x20000000400#42)) = .next (respond (slot b32 (.present g32)) (.ok 1)) := rfl
theorem witness_PlatformBlocksAreIndependent :
    (1 : Fin 2) ≠ 0 ∧ (Platform.reset #v[b32, b64] (by decide)).blocks[(1 : Fin 2)] = State.resetOf b64 := by
  simp [Platform.reset]
theorem witness_TextOfARequestReadsBack : (Instr.hasext 0x20).wf b32 = true := by decide

end Sys2Proof.Tests
end

/-! PROOFS. Every request does what the reference equations `refStep` say, for every build and every slot value. -/

section
namespace Sys2Proof.Machine

/-! The operands and result codes, in plain numbers. -/

/-- The wrapping subtraction puts a code below 'A' far above 25, since `CHAR_W ≥ 7` (spec/30_encoding.md R51, R52). -/
theorem letterRank_toNat {m c : Nat} (hm : 7 ≤ m) (hc : c < 2 ^ m) :
    (letterRank (BitVec.ofNat m c)).toNat = if 0x41 ≤ c then c - 0x41 else c + 2 ^ m - 0x41 := by
  have hpow : 2 ^ 7 ≤ 2 ^ m := Nat.pow_le_pow_right (by decide) hm
  rw [letterRank, BitVec.toNat_sub, BitVec.toNat_ofNat, BitVec.toNat_ofNat, Nat.mod_eq_of_lt hc,
    Nat.mod_eq_of_lt (show 0x41 < 2 ^ m by omega)]
  split
  · rw [show 2 ^ m - 0x41 + c = c - 0x41 + 2 ^ m by omega, Nat.add_mod_right, Nat.mod_eq_of_lt (by omega)]
  · rw [Nat.mod_eq_of_lt (by omega)]; omega

theorem rankInRange_letterRank_iff {m c : Nat} (hm : 7 ≤ m) (hc : c < 2 ^ m) :
    rankInRange (letterRank (BitVec.ofNat m c)) = true ↔ 0x41 ≤ c ∧ c ≤ 0x5A := by
  have hpow : 2 ^ 7 ≤ 2 ^ m := Nat.pow_le_pow_right (by decide) hm
  rw [rankInRange, decide_eq_true_iff, letterRank_toNat hm hc]
  split <;> omega

theorem extensionMask_eq_twoPow (n k : Nat) : extensionMask n k = BitVec.twoPow n k := by
  have hone : zext n 1#1 = 1#n := boolData_true n
  rw [extensionMask, hone, BitVec.twoPow_eq]

/-- The mask selects one bit of the view (spec/30_encoding.md R53). -/
theorem and_extensionMask_ne_zero_iff {n k : Nat} (bits : Word n) :
    bits &&& extensionMask n k ≠ 0 ↔ bits.toNat.testBit k = true := by
  rw [extensionMask_eq_twoPow, BitVec.and_twoPow, BitVec.testBit_toNat]
  cases h : bits.getLsbD k
  · simp
  · have hbit : (BitVec.twoPow n k).getLsbD k = true := by simp [BitVec.lt_of_getLsbD h]
    have hne : BitVec.twoPow n k ≠ 0 := fun h0 => by simp [h0] at hbit
    simpa using hne

/-- The multiplexer on the code of a letter (spec/42_bit_test_mux.md R70). -/
theorem hasExtension_iff {n m c : Nat} (hm : 7 ≤ m) (hc : c < 2 ^ m) (bits : Word n) :
    hasExtension bits (BitVec.ofNat m c) = true ↔ 0x41 ≤ c ∧ c ≤ 0x5A ∧ bits.toNat.testBit (c - 0x41) := by
  have hrange := rankInRange_letterRank_iff hm hc
  by_cases hin : 0x41 ≤ c ∧ c ≤ 0x5A
  · rw [hasExtension_in_range _ _ (hrange.2 hin), decide_eq_true_iff, and_extensionMask_ne_zero_iff,
      letterRank_toNat hm hc, if_pos hin.1]
    simp [hin]
  · rw [hasExtension_out_of_range _ _ (by simpa using mt hrange.1 hin)]
    simp only [Bool.false_eq_true, false_iff]
    exact fun h => hin ⟨h.1, h.2.1⟩

theorem boolData_eq_ite (n : Nat) (v : Bool) : boolData n v = if v = true then 1 else 0 := by
  cases v <;> simp

/-- An answer given by the class's code is the width field as a number (spec/30_encoding.md R47). -/
theorem zext_widthField {n : Nat} (hn : 2 ≤ n) (bits : Word n) :
    zext n (widthField bits) = BitVec.ofNat n (fieldValue bits) := by
  rw [fieldValue, ← widthField_toNat hn, BitVec.ofNat_toNat]
  rfl

theorem widthField_eq_zero_iff {n : Nat} (hn : 2 ≤ n) (bits : Word n) :
    widthField bits = 0#2 ↔ fieldValue bits = 0 := by
  rw [fieldValue, ← widthField_toNat hn, ← BitVec.toNat_inj]
  rfl

/-! One request, by its operation. -/

/-- The state after a request, by the reference equations: only the slot and the response port may change. -/
def refNext (s : State) (i : Instr) : State :=
  { s with view := (refStep s.view i).1, rsp := some (refStep s.view i).2 }

/-- Without a view every query is refused NO_VIEW (spec/60_exceptions.md R80). -/
theorem refStep_of_noView {n : Nat} {v : View n} {i : Instr} (hq : i.op.isQuery = true)
    (hv : v = .empty ∨ v = .absent) : refStep v i = (v, .noView) := by
  cases i with
  | capture raw => cases hq
  | bits => obtain rfl | rfl := hv <;> rfl
  | width => obtain rfl | rfl := hv <;> rfl
  | hasext c => obtain rfl | rfl := hv <;> rfl

/-- The checks shared by the queries agree with the equations, so a query is left with the PRESENT slot. -/
theorem serveQuery_eq_refNext {s : State} {i : Instr} (hq : i.op.isQuery = true)
    {k : Word s.build.wordBits → State} (hk : ∀ bits, s.view = .present bits → k bits = refNext s i) :
    serveQuery s k = refNext s i := by
  obtain ⟨hv, hserve⟩ | ⟨hv, hserve⟩ | ⟨bits, hv, hserve⟩ := serveQuery_cases s k
  · simp [hserve, answerHalted, respond, refNext, refStep, hv]
  · simp [hserve, refuseNoView, respond, refNext, refStep_of_noView hq hv]
  · rw [hserve, hk bits hv]

/-- A capture is the same from every slot value that is not HALTED (spec/40_view_extractor.md R62). -/
theorem refStep_capture {n : Nat} {v : View n} (h : v ≠ .halted) (raw : Nat) :
    refStep v (.capture raw) = if raw = 0 then (.absent, .ok 0) else (.present (BitVec.ofNat n raw), .ok 1) := by
  cases v with
  | halted => exact absurd rfl h
  | empty => rfl
  | absent => rfl
  | present bits => rfl

theorem execCapture_eq_refNext {s : State} {raw : Nat} (hraw : raw < 2 ^ s.build.wordBits) :
    execCapture raw s = .next (refNext s (.capture raw)) := by
  rw [execCapture, if_pos hraw]
  congr 1
  obtain ⟨hv, hserve⟩ | ⟨hv, hserve⟩ := serveCapture_cases s (BitVec.ofNat s.build.wordBits raw)
  · simp [hserve, answerHalted, respond, refNext, refStep, hv]
  · rw [hserve, refNext, refStep_capture hv]
    split
    next h0 => simp [recordCapture, respond, setView, h0]
    next h0 =>
      have hne : BitVec.ofNat s.build.wordBits raw ≠ 0 := by
        simpa [← BitVec.toNat_inj, Nat.mod_eq_of_lt hraw] using h0
      simp [recordCapture, respond, setView, construct_nonzero hne]

theorem execBits_eq_refNext (s : State) : execBits s = .next (refNext s .bits) := by
  refine congrArg Host.Outcome.next (serveQuery_eq_refNext rfl fun bits hv => ?_)
  simp [respond, refNext, refStep, hv]

theorem execWidth_eq_refNext (s : State) : execWidth s = .next (refNext s .width) := by
  refine congrArg Host.Outcome.next (serveQuery_eq_refNext rfl fun bits hv => ?_)
  have hW : 2 ≤ s.build.wordBits := le_trans (by decide) (wordBits_ge s.build)
  have hzero := widthField_eq_zero_iff hW bits
  obtain ⟨h0, hclass⟩ | ⟨h0, wc, hclass, hcode⟩ := ofField_cases (widthField bits)
  · simp [hclass, raiseFatal, respond, setView, refNext, refStep, hv, hzero.1 h0]
  · simp [hclass, hcode, zext_widthField hW, respond, refNext, refStep, hv, mt hzero.2 h0]

theorem execHasext_eq_refNext {s : State} {c : Nat} (hc : c < 2 ^ s.build.charW) :
    execHasext c s = .next (refNext s (.hasext c)) := by
  rw [execHasext, if_pos hc]
  refine congrArg Host.Outcome.next (serveQuery_eq_refNext rfl fun bits hv => ?_)
  simp only [boolData_eq_ite, hasExtension_iff s.build.charW_ge hc, respond, refNext, refStep, hv]

/-- A request that fits the build completes as the reference equations say. -/
theorem exec_eq_refNext {s : State} {i : Instr} (h : i.wf s.build = true) : exec i s = .next (refNext s i) := by
  cases i with
  | capture raw => exact execCapture_eq_refNext (of_decide_eq_true h)
  | bits => exact execBits_eq_refNext s
  | width => exact execWidth_eq_refNext s
  | hasext c => exact execHasext_eq_refNext (of_decide_eq_true h)

/-- Only a request that fits the build completes (log entry 8). -/
theorem wf_of_exec_eq_next {s t : State} {i : Instr} (h : exec i s = .next t) : i.wf s.build = true := by
  cases i with
  | capture raw =>
    refine decide_eq_true (by_contra fun hwide => ?_)
    simp [exec, execCapture, hwide] at h
  | bits => rfl
  | width => rfl
  | hasext c =>
    refine decide_eq_true (by_contra fun hwide => ?_)
    simp [exec, execHasext, hwide] at h

/-- A completed request is one that fits, and leaves what the reference equations say. -/
theorem exec_eq_next_iff {s t : State} {i : Instr} :
    exec i s = .next t ↔ i.wf s.build = true ∧ t = refNext s i := by
  constructor
  · intro h
    have hwf := wf_of_exec_eq_next h
    rw [exec_eq_refNext hwf] at h
    cases h
    exact ⟨hwf, rfl⟩
  · rintro ⟨hwf, rfl⟩
    exact exec_eq_refNext hwf

/-- A query leaves the slot as it is, unless it halts the block (spec/60_exceptions.md R79). -/
theorem refStep_view_of_query {n : Nat} {v : View n} {i : Instr} (hq : i.op.isQuery = true)
    (hsafe : (refStep v i).1.isHalted = false) : (refStep v i).1 = v := by
  cases i with
  | capture raw => cases hq
  | bits => cases v <;> rfl
  | hasext c => cases v <;> rfl
  | width =>
    cases v with
    | present bits =>
      simp only [refStep] at hsafe ⊢
      split at hsafe
      next => cases hsafe
      next hfield => rw [if_neg hfield]
    | empty => rfl
    | absent => rfl
    | halted => rfl

/-- What a request does to the slot and the answer it gets do not depend on the response port or on the events. -/
theorem exec_of_other_ports {s : State} {i : Instr} {v : View s.build.wordBits} {r : Response s.build.wordBits}
    (h : exec i s = .next { s with view := v, rsp := some r }) (x : Option (Response s.build.wordBits))
    (es : List (HostEvent s.build.reqBits)) :
    exec i { s with rsp := x, events := es } = .next { s with view := v, rsp := some r, events := es } := by
  obtain ⟨hwf, hs⟩ := exec_eq_next_iff.1 h
  simp only [refNext, State.mk.injEq, heq_eq_eq, true_and, and_true, Option.some.injEq] at hs
  obtain ⟨rfl, rfl⟩ := hs
  exact exec_eq_refNext (s := { s with rsp := x, events := es }) hwf

/-- A completed query that does not raise has written the response port only (spec/00_scope.md R11). -/
theorem exec_query_frame {s t : State} {i : Instr} (hq : i.op.isQuery = true) (h : exec i s = .next t)
    (hsafe : t.fatalOut = false) : ∃ r, t = { s with rsp := some r } := by
  obtain ⟨-, rfl⟩ := exec_eq_next_iff.1 h
  have hview : (refStep s.view i).1 = s.view := refStep_view_of_query hq hsafe
  exact ⟨(refStep s.view i).2, by rw [refNext, hview]⟩

/-- Settles O41: the slot and the answer are those of `refStep`, which is given the slot and the request only, and a
query that does not raise leaves the slot, so that repeated it meets the same slot and gets the same answer. -/
theorem answersDependOnSlotAndRequestOnly : Obligations.AnswersDependOnSlotAndRequestOnly := by
  refine ⟨fun s i x es v r h => exec_of_other_ports h x es, fun s t i hq h hsafe => ?_⟩
  obtain ⟨r, rfl⟩ := exec_query_frame hq h hsafe
  exact ⟨⟨r, rfl⟩, exec_of_other_ports h (some r) s.events⟩

end Sys2Proof.Machine
end

/-! PROOFS. What a step can do to the slot, and what follows: the invariant, the writers of the slot, the frame of the
requests, and the bits that only BITS reads. -/

section
namespace Sys2Proof.Machine

/-! One request, by its effect on the slot. -/

/-- The operand of a decoded request comes from lines of its own width (spec/30_encoding.md R42). -/
theorem decodeWord_wf (b : Build) (q : Word b.reqBits) : (decodeWord b q).wf b = true := by
  obtain ⟨-, h⟩ | ⟨-, h⟩ | ⟨-, h⟩ | ⟨-, h⟩ := decodeWord_cases b q <;> rw [h]
  case inl => exact decide_eq_true (reqRaw q).isLt
  case inr.inl => rfl
  case inr.inr.inl => rfl
  case inr.inr.inr => exact decide_eq_true (reqLetter q).isLt

/-- A capture records "absent" for zero and a view for any other raw value (spec/40_view_extractor.md R59, R60). -/
theorem refStep_capture_cases {b : Build} {v : View b.wordBits} {raw : Nat} (hv : v ≠ .halted)
    (hlt : raw < 2 ^ b.wordBits) :
    (raw = 0 ∧ refStep v (.capture raw) = (.absent, .ok 0)) ∨
    ∃ bits : Word b.wordBits, bits ≠ 0 ∧ raw = bits.toNat ∧ refStep v (.capture raw) = (.present bits, .ok 1) := by
  rw [refStep_capture hv]
  by_cases hraw : raw = 0
  · exact .inl ⟨hraw, if_pos hraw⟩
  · have htoNat : (BitVec.ofNat b.wordBits raw).toNat = raw := Nat.mod_eq_of_lt hlt
    have hne : BitVec.ofNat b.wordBits raw ≠ 0 := fun h0 => hraw (by simpa [h0] using htoNat.symm)
    exact .inr ⟨_, hne, htoNat.symm, if_neg hraw⟩

/-- A query keeps the slot and answers as it asks, or is a WIDTH on a zero width field and halts the block. -/
theorem refStep_query_cases {n : Nat} {v : View n} {i : Instr} (hq : i.op.isQuery = true) :
    (∃ r : Response n, r.agreesWith v ∧ refStep v i = (v, r)) ∨
    (i = .width ∧ ∃ bits, v = .present bits ∧ fieldValue bits = 0 ∧ refStep v i = (.halted, .fatal)) := by
  cases v with
  | halted => exact .inl ⟨.fatal, rfl, rfl⟩
  | empty => exact .inl ⟨.noView, .inl rfl, refStep_of_noView hq (.inl rfl)⟩
  | absent => exact .inl ⟨.noView, .inr rfl, refStep_of_noView hq (.inr rfl)⟩
  | present bits =>
    cases i with
    | capture raw => cases hq
    | bits => exact .inl ⟨.ok _, ⟨nofun, nofun⟩, rfl⟩
    | hasext c => exact .inl ⟨.ok _, ⟨nofun, nofun⟩, rfl⟩
    | width =>
      by_cases hfield : fieldValue bits = 0
      · exact .inr ⟨rfl, bits, rfl, hfield, if_pos hfield⟩
      · exact .inl ⟨.ok _, ⟨nofun, nofun⟩, if_neg hfield⟩

/-- Everything a request can do to the slot (spec/10_state.md R14): keep it and answer as it asks, record a raw value
in a slot that is not halted, or halt the block on a zero width field. -/
theorem refStep_cases {b : Build} {i : Instr} (v : View b.wordBits) (hwf : i.wf b = true) :
    (∃ r : Response b.wordBits, r.agreesWith v ∧ refStep v i = (v, r)) ∨
    (v ≠ .halted ∧ i = .capture 0 ∧ refStep v i = (.absent, .ok 0)) ∨
    (v ≠ .halted ∧ ∃ raw : Word b.wordBits, raw ≠ 0 ∧ i = .capture raw.toNat ∧ refStep v i = (.present raw, .ok 1)) ∨
    (i = .width ∧ ∃ bits, v = .present bits ∧ fieldValue bits = 0 ∧ refStep v i = (.halted, .fatal)) := by
  cases i with
  | bits => exact (refStep_query_cases rfl).imp_right fun h => .inr (.inr h)
  | width => exact (refStep_query_cases rfl).imp_right fun h => .inr (.inr h)
  | hasext c => exact (refStep_query_cases rfl).imp_right fun h => .inr (.inr h)
  | capture raw =>
    by_cases hv : v = .halted
    · exact .inl ⟨.fatal, hv, by rw [hv]; rfl⟩
    obtain ⟨rfl, heq⟩ | ⟨bits, hbits, rfl, heq⟩ := refStep_capture_cases hv (of_decide_eq_true hwf)
    · exact .inr (.inl ⟨hv, rfl, heq⟩)
    · exact .inr (.inr (.inl ⟨hv, bits, hbits, rfl, heq⟩))

/-- Everything a step can do: wait, reset the block, or serve the decoded request. -/
theorem step_cases {s t : State} (h : step s = .next t) :
    (s.events = [] ∧ t = idle s) ∨
    (∃ rest, s.events = .reset :: rest ∧ t = applyReset { s with events := rest }) ∨
    ∃ q rest, s.events = .request q :: rest ∧ t = refNext { s with events := rest } (decodeWord s.build q) := by
  rw [step] at h
  match hev : s.events with
  | [] =>
    rw [fetch_nothing hev] at h
    cases h
    exact .inl ⟨rfl, rfl⟩
  | .reset :: rest =>
    rw [fetch_reset hev] at h
    cases h
    exact .inr (.inl ⟨rest, rfl, rfl⟩)
  | .request q :: rest =>
    rw [fetch_request hev] at h
    exact .inr (.inr ⟨q, rest, rfl, (exec_eq_next_iff.1 h).2⟩)

/-! The invariant. -/

theorem inv_of_rsp_none {s : State} (hview : s.view.wf) (hrsp : s.rsp = none) : s.Inv :=
  ⟨hview, fun r hr => by simp [hrsp] at hr⟩

/-- A request keeps the payload nonzero and answers as the slot it leaves asks. -/
theorem refNext_keeps_inv {s : State} {i : Instr} (hview : s.view.wf) (hwf : i.wf s.build = true) :
    (refNext s i).Inv := by
  suffices h : (refStep s.view i).1.wf ∧ (refStep s.view i).2.agreesWith (refStep s.view i).1 from
    ⟨h.1, fun r hr => Option.some.inj hr ▸ h.2⟩
  obtain ⟨r, hr, heq⟩ | ⟨-, -, heq⟩ | ⟨-, raw, hraw, -, heq⟩ | ⟨-, bits, -, -, heq⟩ := refStep_cases s.view hwf <;>
    rw [heq]
  case inl => exact ⟨hview, hr⟩
  case inr.inl => exact ⟨trivial, nofun, nofun⟩
  case inr.inr.inl => exact ⟨hraw, nofun, nofun⟩
  case inr.inr.inr => exact ⟨trivial, rfl⟩

/-- Settles O47: waiting and reset leave no answer pending, and a request answers as the slot it leaves asks. -/
theorem stepKeepsTheInvariant : Obligations.StepKeepsTheInvariant := by
  rintro s t ⟨hview, -⟩ h
  obtain ⟨-, rfl⟩ | ⟨rest, -, rfl⟩ | ⟨q, rest, -, rfl⟩ := step_cases h
  · exact inv_of_rsp_none hview rfl
  · exact inv_of_rsp_none trivial rfl
  · exact refNext_keeps_inv (s := { s with events := rest }) hview (decodeWord_wf s.build q)

/-- Settles O46: the slot is EMPTY and no answer is pending. -/
theorem resetMeetsTheInvariant : Obligations.ResetMeetsTheInvariant :=
  fun b => inv_of_rsp_none (s := State.resetOf b) trivial rfl

/-! Who writes the slot. -/

/-- Settles O38: the effects of a step are those of `step_cases`, and for a request those of `refStep_cases`. -/
theorem onlyCaptureFatalAndResetWriteTheSlot : Obligations.OnlyCaptureFatalAndResetWriteTheSlot := by
  intro s t h
  obtain ⟨hev, rfl⟩ | ⟨rest, hev, rfl⟩ | ⟨q, rest, hev, rfl⟩ := step_cases h
  · exact .inl ⟨none, by rw [hev, List.tail_nil, ← hev]; rfl⟩
  · exact .inr (.inl ⟨by rw [hev]; rfl, rest, hev⟩)
  · obtain ⟨r, -, heq⟩ | ⟨hv, hi, heq⟩ | ⟨hv, raw, hraw, hi, heq⟩ | ⟨hi, bits, hv, hfield, heq⟩ :=
      refStep_cases s.view (decodeWord_wf s.build q) <;> rw [refNext, heq]
    case inl => exact .inl ⟨some r, by rw [hev]; rfl⟩
    case inr.inl => exact .inr (.inr ⟨q, rest, hev, hv, .inr (.inl ⟨hi, rfl⟩)⟩)
    case inr.inr.inl => exact .inr (.inr ⟨q, rest, hev, hv, .inl ⟨raw, hi, hraw, rfl⟩⟩)
    case inr.inr.inr =>
      exact .inr (.inr ⟨q, rest, hev, by rw [hv]; nofun, .inr (.inr ⟨hi, ⟨bits, hv, hfield⟩, rfl⟩)⟩)

/-- Settles O40: of the effects in `refStep_cases`, a request that is no CAPTURE and does not raise can only keep the
slot. -/
theorem requestFrames : Obligations.RequestFrames := by
  intro s t i h
  obtain ⟨hwf, rfl⟩ := exec_eq_next_iff.1 h
  refine ⟨⟨_, _, rfl⟩, fun hop => ?_⟩
  obtain ⟨r, -, heq⟩ | ⟨-, rfl, -⟩ | ⟨-, raw, -, rfl, -⟩ | ⟨rfl, bits, hv, hfield, -⟩ := refStep_cases s.view hwf
  · exact ⟨r, by rw [refNext, heq]⟩
  · simp [Instr.op] at hop
  · simp [Instr.op] at hop
  · simp [Instr.op, hv, hfield] at hop

/-! Bits `[W-3:26]` (spec/10_state.md R22). -/

/-- The width field is read from bits `[W-1:W-2]` alone (spec/30_encoding.md R50). -/
theorem fieldValue_congr {n : Nat} {x y : Word n} (h : ∀ k, n - 2 ≤ k → x.getLsbD k = y.getLsbD k) :
    fieldValue x = fieldValue y := by
  refine Nat.eq_of_testBit_eq fun k => ?_
  simpa [fieldValue, Nat.testBit_div_two_pow, BitVec.testBit_toNat] using h (k + (n - 2)) (Nat.le_add_left ..)

/-- WIDTH reads the width field and HASEXT the bits of the 26 letters, so their answers agree on payloads that agree
there. -/
theorem refStep_answer_congr {n : Nat} {x y : Word n} {i : Instr}
    (h : ∀ k, k ≤ 25 ∨ n - 2 ≤ k → x.getLsbD k = y.getLsbD k) (hop : i.op = .width ∨ i.op = .hasext) :
    (refStep (.present x) i).2 = (refStep (.present y) i).2 := by
  cases i with
  | capture raw => simp [Instr.op] at hop
  | bits => simp [Instr.op] at hop
  | width =>
    have hfield : fieldValue x = fieldValue y := fieldValue_congr fun k hk => h k (.inr hk)
    simp only [refStep, hfield]
    split <;> rfl
  | hasext c =>
    have hletter : (0x41 ≤ c ∧ c ≤ 0x5A ∧ x.toNat.testBit (c - 0x41)) ↔
        (0x41 ≤ c ∧ c ≤ 0x5A ∧ y.toNat.testBit (c - 0x41)) :=
      and_congr_right fun _ => and_congr_right fun hZ => by
        rw [BitVec.testBit_toNat, BitVec.testBit_toNat, h _ (.inl (by omega))]
    simp only [refStep, hletter]

/-- A value with any bit set is captured as a view (spec/40_view_extractor.md R60). -/
theorem exec_capture_of_ne_zero {s : State} {x : Word s.build.wordBits} (hv : s.view ≠ .halted) (hx : x ≠ 0) :
    exec (.capture x.toNat) s = .next { s with view := .present x, rsp := some (.ok 1) } := by
  obtain ⟨hhalted, -⟩ | ⟨-, hserve⟩ := serveCapture_cases s x
  · exact absurd hhalted hv
  · simp [execCapture_word, hserve, recordCapture, respond, setView, construct_nonzero hx]

/-- Settles O43: WIDTH and HASEXT read other bits, BITS returns the payload, and a set bit makes a value nonzero. -/
theorem middleBitsPassThrough : Obligations.MiddleBitsPassThrough := by
  intro s x y hxy
  refine ⟨fun i hwf hop => ⟨(refStep (.present x) i).2, ⟨(refStep (.present x) i).1, ?_⟩,
    ⟨(refStep (.present y) i).1, ?_⟩⟩, rfl, ?_⟩
  · exact exec_eq_refNext (s := { s with view := .present x }) hwf
  · rw [refStep_answer_congr hxy hop]
    exact exec_eq_refNext (s := { s with view := .present y }) hwf
  · rintro hv ⟨k, -, -, hk⟩
    exact exec_capture_of_ne_zero hv fun h0 => by simp [h0] at hk

/-! Reset and the outputs. -/

/-- Settles O1: the fields of the state after reset, and the outputs of an EMPTY slot. -/
theorem resetLeavesTheSlotEmpty : Obligations.ResetLeavesTheSlotEmpty := by
  intro b
  simp

/-- Settles O45: by the four slot values; the other fields do not enter. -/
theorem outputsFollowTheSlot : Obligations.OutputsFollowTheSlot := by
  intro s
  refine ⟨?_, ?_, fun _ _ => ⟨rfl, rfl⟩⟩
  · cases h : s.view <;> simp [h]
  · cases h : s.view <;> simp [h]

end Sys2Proof.Machine
end

/-! PROOFS. The host's requests in their order (spec/20_memory.md R34 to R36): what each step does with the event it
takes, what a run of requests amounts to, and which queries may change places. -/

section
namespace Sys2Proof.Machine

/-! One step, by the event it takes. -/

theorem step_of_nothing {s : State} (h : s.events = []) : step s = .next (idle s) := by
  rw [step, fetch_nothing h]

theorem step_of_reset {s : State} {rest : List (HostEvent s.build.reqBits)} (h : s.events = .reset :: rest) :
    step s = .next (applyReset { s with events := rest }) := by
  rw [step, fetch_reset h]

theorem step_of_request {s : State} {q : Word s.build.reqBits} {rest : List (HostEvent s.build.reqBits)}
    (h : s.events = .request q :: rest) : step s = exec (decodeWord s.build q) { s with events := rest } := by
  rw [step, fetch_request h]

/-- A decoded request fits the build, so the step that takes it completes as the reference equations say. -/
theorem step_request_eq_refNext {s : State} {q : Word s.build.reqBits} {rest : List (HostEvent s.build.reqBits)}
    (h : s.events = .request q :: rest) :
    step s = .next (refNext { s with events := rest } (decodeWord s.build q)) := by
  rw [step_of_request h]
  exact exec_eq_refNext (s := { s with events := rest }) (decodeWord_wf s.build q)

/-- Settles O4: every decoded operand comes from lines of its own width, and the step hands the request to `exec`. -/
theorem stepRunsTheDecodedRequest : Obligations.StepRunsTheDecodedRequest :=
  fun s q _ h => ⟨decodeWord_wf s.build q, step_of_request h⟩

/-- Settles O5: by the event the step finds; a request completes because its decoded operand fits. -/
theorem everyStepContinues : Obligations.EveryStepContinues := by
  intro s
  match hev : s.events with
  | [] => exact ⟨s.view, none, by rw [step_of_nothing hev, List.tail_nil, ← hev]; rfl⟩
  | .reset :: rest => exact ⟨.empty, none, step_of_reset hev⟩
  | .request q :: rest => exact ⟨_, _, step_request_eq_refNext hev⟩

/-! Runs over the host's requests. -/

/-- Settles O37, by induction on `k`: the first step applies the equations to the first word, and the run goes on from
the slot they leave, over the words that are left. -/
theorem runIsTheFoldOfTheRequests : Obligations.RunIsTheFoldOfTheRequests := by
  intro s words rest k hk hev
  induction k generalizing s with
  | zero =>
    obtain ⟨q, ws, rfl⟩ := List.exists_cons_of_length_pos hk
    rw [run_succ_of_step (step_request_eq_refNext hev)]
    rfl
  | succ k ih =>
    match words, hk with
    | q :: ws, hk =>
      rw [run_succ_of_step (step_request_eq_refNext hev)]
      exact ih (refNext { s with events := ws.map .request ++ rest } (decodeWord s.build q)) ws rest
        (Nat.lt_of_succ_lt_succ hk) rfl

/-! Queries that do not raise. -/

/-- A query keeps the slot and completes, unless it is a WIDTH on a zero width field. -/
theorem exec_query_of_not_raising {s : State} {i : Instr} (hwf : i.wf s.build = true) (hq : i.op.isQuery = true)
    (hfield : ∀ bits, s.view = .present bits → i = .width → fieldValue bits ≠ 0) :
    ∃ r, exec i s = .next { s with rsp := some r } := by
  rw [exec_eq_refNext hwf]
  obtain ⟨r, -, heq⟩ | ⟨hi, bits, hv, hzero, -⟩ := refStep_query_cases (v := s.view) hq
  · exact ⟨r, by rw [refNext, heq]⟩
  · exact absurd hzero (hfield bits hv hi)

/-- Settles O42: neither query writes the slot, and an answer does not depend on what the response port holds. -/
theorem queriesCommute : Obligations.QueriesCommute := by
  intro s i j hwfi hwfj hqi hqj hfield
  obtain ⟨ri, hi⟩ := exec_query_of_not_raising hwfi hqi fun bits hv h => hfield bits hv (.inl h)
  obtain ⟨rj, hj⟩ := exec_query_of_not_raising hwfj hqj fun bits hv h => hfield bits hv (.inr h)
  exact ⟨ri, rj, hi, exec_of_other_ports hj (some ri) s.events, hj, exec_of_other_ports hi (some rj) s.events⟩

/-! Operands that no request word carries (log entry 8). -/

theorem exec_of_not_wf {s : State} {i : Instr} (h : i.wf s.build = false) : exec i s = .refused .operandTooWide := by
  cases i with
  | capture raw => exact if_neg (of_decide_eq_false h)
  | bits => cases h
  | width => cases h
  | hasext c => exact if_neg (of_decide_eq_false h)

/-- Settles O11: a request that does not fit is refused, and one that fits completes, so it is not refused. -/
theorem operandsTooWideAreRefused : Obligations.OperandsTooWideAreRefused := by
  intro i s
  refine ⟨exec_of_not_wf, fun hrefused => ?_⟩
  by_contra hfits
  rw [exec_eq_refNext (Bool.eq_true_of_not_eq_false hfits)] at hrefused
  cases hrefused

end Sys2Proof.Machine
end

/-! PROOFS. Request words, response words and operand decode: the decoder undoes the encoder, a word selects one row of
the opcode table, and the fields, the rank and the mask are the numbers spec/30_encoding.md gives. -/

section
namespace Sys2Proof

/-! Request words (spec/30_encoding.md R42, R43, R49). -/

/-- Settles O8: the canonical word packs the operand in its field, and an operand that fits is its own residue. -/
theorem decodeOfEncodeIsTheRequest : Obligations.DecodeOfEncodeIsTheRequest := by
  intro b i hwf
  cases i with
  | capture raw =>
    rw [encode, decodeWord_packRequest, BitVec.toNat_ofNat, Nat.mod_eq_of_lt (of_decide_eq_true hwf)]
  | bits => exact decodeWord_packRequest b 0 0 .bits
  | width => exact decodeWord_packRequest b 0 0 .width
  | hasext c =>
    rw [encode, decodeWord_packRequest, BitVec.toNat_ofNat, Nat.mod_eq_of_lt (of_decide_eq_true hwf)]

theorem reqOp_toNat {b : Build} (q : Word b.reqBits) : (reqOp q).toNat = q.toNat % 4 :=
  BitVec.extractLsb'_toNat 0 2 q

/-- The operation of a decoded request is the one its operation field numbers. -/
theorem decodeWord_op {b : Build} (q : Word b.reqBits) : (decodeWord b q).op = Op.ofCode (reqOp q) := by
  obtain ⟨hop, h⟩ | ⟨hop, h⟩ | ⟨hop, h⟩ | ⟨hop, h⟩ := decodeWord_cases b q <;> rw [hop, h] <;> rfl

theorem eq_code_iff (c : BitVec 2) (o : Op) : c = o.code ↔ o = Op.ofCode c := by
  constructor
  · rintro rfl
    exact (ofCode_code o).symm
  · rintro rfl
    exact (code_ofCode c).symm

/-- A row of the opcode table masks the operation field and matches the number of its operation. -/
theorem opcodeRow_eq {r : OpcodeRow} (hr : r ∈ opcodeRows) : r = ⟨r.op, r.op.code.toNat, 3⟩ := by
  have hrows : ∀ r ∈ opcodeRows, r = ⟨r.op, r.op.code.toNat, 3⟩ := by decide
  exact hrows r hr

/-- A row selects the words whose operation field is the number of its operation. -/
theorem selects_iff_reqOp {b : Build} (q : Word b.reqBits) {r : OpcodeRow} (hr : r ∈ opcodeRows) :
    r.selects q.toNat = true ↔ reqOp q = r.op.code := by
  have hmask : q.toNat &&& 3 = (reqOp q).toNat :=
    (Nat.and_two_pow_sub_one_eq_mod q.toNat 2).trans (reqOp_toNat q).symm
  rw [opcodeRow_eq hr, OpcodeRow.selects, beq_iff_eq, hmask, BitVec.toNat_inj]

/-- Settles O9: a row is selected by the operation field, which numbers the operation decoded. -/
theorem everyWordSelectsOneRow : Obligations.EveryWordSelectsOneRow :=
  ⟨rfl, rfl, fun _ q r hr => by rw [selects_iff_reqOp q hr, eq_code_iff, decodeWord_op]⟩

/-- The decoder reads the operation field, and of the others the one its operation uses (spec/30_encoding.md R49). -/
theorem decodeWord_congr {b : Build} {q q' : Word b.reqBits} (hop : reqOp q = reqOp q')
    (hraw : reqOp q = 0#2 → reqRaw q = reqRaw q') (hletter : reqOp q = 3#2 → reqLetter q = reqLetter q') :
    decodeWord b q = decodeWord b q' := by
  rw [decodeWord, decodeWord, ← hop]
  obtain ⟨h, -⟩ | ⟨h, -⟩ | ⟨h, -⟩ | ⟨h, -⟩ := decodeWord_cases b q
  · rw [hraw h, h]; rfl
  · rw [h]; rfl
  · rw [h]; rfl
  · rw [hletter h, h]; rfl

theorem append_toNat {m n : Nat} (x : BitVec m) (y : BitVec n) : (x ++ y).toNat = x.toNat * 2 ^ n + y.toNat := by
  rw [BitVec.toNat_append, ← Nat.shiftLeft_add_eq_or_of_lt y.isLt, Nat.shiftLeft_eq]

/-- The packed word as a number: each field at the weight of its lowest bit (spec/30_encoding.md R42). -/
theorem packRequest_toNat (b : Build) (raw : Word b.wordBits) (c : CharCode b.charW) (o : BitVec 2) :
    (packRequest b raw c o).toNat = raw.toNat * 2 ^ (b.charW + 2) + c.toNat * 4 + o.toNat := by
  rw [packRequest, append_toNat, append_toNat, Nat.pow_add]
  ring

/-- Settles O10: the decoder does not read the ignored fields, and the encoder packs zero in them. -/
theorem ignoredFieldsHaveNoEffect : Obligations.IgnoredFieldsHaveNoEffect := by
  refine ⟨fun s q q' hop hraw hletter => by rw [decodeWord_congr hop hraw hletter], fun b raw c => ?_⟩
  simp [encode, packRequest_toNat, Op.code]

/-- Settles O7: each word is decoded by evaluation. -/
theorem specWordsDecode : Obligations.SpecWordsDecode := by
  unfold Obligations.SpecWordsDecode
  decide

end Sys2Proof

namespace Sys2Proof.Machine

/-! Response words (spec/30_encoding.md R44). -/

theorem extractLsb'_status_word {n : Nat} (r : Response n) : r.word.extractLsb' 0 2 = r.status.code :=
  BitVec.extractLsb'_append_eq_right

theorem extractLsb'_data_word {n : Nat} (r : Response n) : r.word.extractLsb' 2 n = r.wireData :=
  BitVec.extractLsb'_append_eq_left

/-- Settles O6: a request step leaves the answer of the reference equations, the other steps leave none, and the
response word is the data field above the status code. -/
theorem everyRequestIsAnsweredByOneWord : Obligations.EveryRequestIsAnsweredByOneWord := by
  refine ⟨fun s q rest hev => ⟨_, _, step_request_eq_refNext hev⟩, fun s t hnone hstep => ?_, fun n r => ?_⟩
  · obtain ⟨-, rfl⟩ | ⟨rest, -, rfl⟩ | ⟨q, rest, hev, -⟩ := step_cases hstep
    · exact idle_rsp s
    · exact applyReset_rsp _
    · exact absurd hev (hnone q rest)
  · refine ⟨extractLsb'_status_word r, (extractLsb'_data_word r).trans ?_⟩
    cases r <;> rfl

/-! Operand decode (spec/30_encoding.md R50 to R53). -/

theorem widthField_getLsbD {n k : Nat} (hk : k < 2) (bits : Word n) :
    (widthField bits).getLsbD k = bits.getLsbD (n - 2 + k) := by
  simp [widthField, slice, hk]

/-- Settles O16: the field is two bits from position `W - 2` up, and `W` is at least 32. -/
theorem widthFieldIsTheTopTwoBits : Obligations.WidthFieldIsTheTopTwoBits := by
  refine ⟨fun b bits => ?_, fun _ => rfl, fun _ => rfl, fun _ => rfl⟩
  have hW := wordBits_ge b
  refine ⟨widthField_toNat (by omega) bits, ?_, widthField_getLsbD (by decide) bits⟩
  rw [widthField_getLsbD (by decide), show b.wordBits - 2 + 1 = b.wordBits - 1 by omega]

/-- The rank is the difference from 'A', wrapping at `2^m` (spec/30_encoding.md R51). -/
theorem letterRank_toNat_eq_mod {m : Nat} (hm : 7 ≤ m) (c : CharCode m) :
    (letterRank c).toNat = (c.toNat + 2 ^ m - 0x41) % 2 ^ m := by
  have hpow : 2 ^ 7 ≤ 2 ^ m := Nat.pow_le_pow_right (by decide) hm
  rw [letterRank, BitVec.toNat_sub, BitVec.toNat_ofNat, Nat.mod_eq_of_lt (show 0x41 < 2 ^ m by omega)]
  congr 1
  omega

/-- Settles O25: a code below 'A' wraps to a rank above 25. -/
theorem rankTestIsTwoSided : Obligations.RankTestIsTwoSided := by
  intro m c hm
  have hrange := rankInRange_letterRank_iff hm c.isLt
  rw [BitVec.ofNat_toNat, BitVec.setWidth_eq] at hrange
  exact ⟨letterRank_toNat_eq_mod hm c, rfl, hrange⟩

/-- Settles O26: the mask is a power of two, and a word of at least 32 bits holds bit 25. -/
theorem maskHasExactlyOneBit : Obligations.MaskHasExactlyOneBit := by
  intro b rank hrank
  have hlt : rank < b.wordBits := lt_of_le_of_lt hrank (lt_of_lt_of_le (by decide) (wordBits_ge b))
  rw [extensionMask_eq_twoPow]
  refine ⟨BitVec.toNat_twoPow_of_lt hlt, fun k => ?_⟩
  simp [hlt, eq_comm]

/-! Data of an OK answer (spec/30_encoding.md R46 to R48). -/

/-- Settles O19: by the three classes. -/
theorem widthClassCodes : Obligations.WidthClassCodes := by
  refine ⟨rfl, rfl, rfl, rfl, fun wc => ?_⟩
  cases wc <;> decide

/-- Only a query on a view is answered OK (spec/60_exceptions.md R80, R81). -/
theorem present_of_query_ok {n : Nat} {v : View n} {i : Instr} {d : Word n} (hq : i.op.isQuery = true)
    (hok : (refStep v i).2 = .ok d) : ∃ bits, v = .present bits := by
  cases v with
  | present bits => exact ⟨bits, rfl⟩
  | halted => cases hok
  | empty => rw [refStep_of_noView hq (.inl rfl)] at hok; cases hok
  | absent => rw [refStep_of_noView hq (.inr rfl)] at hok; cases hok

/-- A capture is answered OK with 1 where it leaves a view and with 0 where it leaves none (spec/30_encoding.md R48). -/
theorem refStep_capture_ok_data {b : Build} {v : View b.wordBits} {raw : Nat} {d : Word b.wordBits}
    (hwf : raw < 2 ^ b.wordBits) (hok : (refStep v (.capture raw)).2 = .ok d) :
    d = if (refStep v (.capture raw)).1.isPresent then 1 else 0 := by
  have hv : v ≠ .halted := by
    rintro rfl
    cases hok
  obtain ⟨-, heq⟩ | ⟨bits, -, -, heq⟩ := refStep_capture_cases hv hwf <;>
    rw [heq] at hok ⊢ <;> cases hok <;> rfl

/-- The width field is a 2-bit value (spec/30_encoding.md R50). -/
theorem fieldValue_lt_four {n : Nat} (hn : 2 ≤ n) (bits : Word n) : fieldValue bits < 4 := by
  rw [fieldValue, ← widthField_toNat hn]
  exact (widthField bits).isLt

theorem refStep_width_ok_data {n : Nat} (hn : 2 ≤ n) {bits d : Word n}
    (hok : (refStep (.present bits) .width).2 = .ok d) : d = 1 ∨ d = 2 ∨ d = 3 := by
  have hlt := fieldValue_lt_four hn bits
  simp only [refStep] at hok
  split at hok
  · cases hok
  · cases hok
    have hfield : fieldValue bits = 1 ∨ fieldValue bits = 2 ∨ fieldValue bits = 3 := by omega
    exact hfield.imp (congrArg _) (Or.imp (congrArg _) (congrArg _))

/-- Settles O44: a query's OK answer is made of the view it finds, whose payload the invariant keeps nonzero. -/
theorem okDataByOperation : Obligations.OkDataByOperation := by
  rintro s t i d ⟨hview, -⟩ hexec hrsp
  obtain ⟨hwf, rfl⟩ := exec_eq_next_iff.1 hexec
  have hok : (refStep s.view i).2 = .ok d := Option.some.inj hrsp
  cases i with
  | capture raw => exact refStep_capture_ok_data (of_decide_eq_true hwf) hok
  | bits =>
    obtain ⟨bits, hv⟩ := present_of_query_ok rfl hok
    rw [hv] at hok hview
    cases hok
    exact ⟨hview, congrArg (fun v => (refStep v .bits).1) hv⟩
  | width =>
    obtain ⟨bits, hv⟩ := present_of_query_ok rfl hok
    rw [hv] at hok
    exact refStep_width_ok_data (le_trans (by decide) (wordBits_ge s.build)) hok
  | hasext c =>
    obtain ⟨bits, hv⟩ := present_of_query_ok rfl hok
    rw [hv] at hok
    simp only [refStep] at hok
    split at hok <;> cases hok
    · exact .inr rfl
    · exact .inl rfl

end Sys2Proof.Machine
end

/-! PROOFS. The text of a request reads back (spec/30_encoding.md R57): a hexadecimal literal reads back to its value,
and a token ends where the writer ends it. -/

section
namespace Sys2Proof.Machine

/-! Hexadecimal literals (spec/00_scope.md R8). -/

theorem digitValue_hexDigit {d : Nat} (hd : d < 16) : digitValue (hexDigit d) = some d := by
  revert d; decide

/-- A digit is no spacing and ends no token. -/
theorem hexDigit_ne {d : Nat} (hd : d < 16) : hexDigit d ≠ '_' ∧ hexDigit d ≠ ' ' ∧ hexDigit d ≠ ';' := by
  revert d; decide

theorem exists_hexDigit_of_mem_hexDigits {k v : Nat} {c : Char} (hc : c ∈ hexDigits k v) :
    ∃ d < 16, c = hexDigit d := by
  induction k generalizing v with
  | zero => cases hc
  | succ k ih =>
    rw [hexDigits, List.mem_append, List.mem_singleton] at hc
    obtain hc | rfl := hc
    · exact ih hc
    · exact ⟨v % 16, Nat.mod_lt _ (by decide), rfl⟩

theorem readDigitsFrom_hexDigit {acc d : Nat} (hd : d < 16) (cs : List Char) :
    readDigitsFrom 16 acc (hexDigit d :: cs) = readDigitsFrom 16 (acc * 16 + d) cs := by
  rw [readDigitsFrom, if_neg (hexDigit_ne hd).1, digitValue_hexDigit hd]
  exact if_pos hd

/-- Reading `k` digits moves the value read so far up `k` digits and adds what the digits stand for. -/
theorem readDigitsFrom_hexDigits (k v acc : Nat) (cs : List Char) :
    readDigitsFrom 16 acc (hexDigits k v ++ cs) = readDigitsFrom 16 (acc * 16 ^ k + v % 16 ^ k) cs := by
  induction k generalizing v cs with
  | zero => simp [hexDigits, Nat.mod_one]
  | succ k ih =>
    have hvalue : (acc * 16 ^ k + v / 16 % 16 ^ k) * 16 + v % 16 = acc * 16 ^ (k + 1) + v % 16 ^ (k + 1) := by
      rw [Nat.pow_succ', Nat.mod_mul]
      ring
    rw [hexDigits, List.append_assoc, List.singleton_append, ih,
      readDigitsFrom_hexDigit (Nat.mod_lt _ (by decide)), hvalue]

theorem readDigits_hexDigits {k v : Nat} (hk : 0 < k) (hv : v < 16 ^ k) : readDigits 16 (hexDigits k v) = some v := by
  have hdigit : ¬ (hexDigits k v).all (fun c => c == '_') = true := by
    obtain ⟨k, rfl⟩ := Nat.exists_eq_add_one_of_ne_zero hk.ne'
    simp [hexDigits, (hexDigit_ne (Nat.mod_lt v (by decide))).1]
  have hread := readDigitsFrom_hexDigits k v 0 []
  rw [List.append_nil, Nat.zero_mul, Nat.zero_add, Nat.mod_eq_of_lt hv] at hread
  rw [readDigits, if_neg hdigit, hread, readDigitsFrom]

/-- A literal with enough digits reads back to its value. -/
theorem readLiteral_hexLiteral {k v bits : Nat} (hk : bits ≤ 4 * k) (hpos : 0 < k) (hv : v < 2 ^ bits) :
    readLiteral bits (hexLiteral k v) = some v := by
  have hdigits : v < 16 ^ k := calc
    v < 2 ^ bits := hv
    _ ≤ 2 ^ (4 * k) := Nat.pow_le_pow_right (by decide) hk
    _ = 16 ^ k := Nat.pow_mul 2 4 k
  simp only [readLiteral, hexLiteral, readDigits_hexDigits hpos hdigits, if_pos hv]

/-! Tokens. -/

theorem skipSpaces_space (cs : List Char) : skipSpaces (' ' :: cs) = skipSpaces cs := rfl

/-- A literal is one token. -/
theorem nextToken_hexLiteral (k v : Nat) : nextToken (hexLiteral k v) = (hexLiteral k v, []) := by
  have hchars : ∀ c ∈ hexLiteral k v, (c != ' ' && c != ';') = true := by
    intro c hc
    obtain rfl | rfl | hc := by simpa [hexLiteral] using hc
    · decide
    · decide
    · obtain ⟨d, hd, rfl⟩ := exists_hexDigit_of_mem_hexDigits hc
      simp [hexDigit_ne hd]
  rw [nextToken, List.span_eq_takeWhile_dropWhile, List.takeWhile_eq_self_iff.2 hchars,
    List.dropWhile_eq_nil_iff.2 hchars]

theorem readLetter_hexLiteral {k v bits : Nat} (hk : bits ≤ 4 * k) (hpos : 0 < k) (hv : v < 2 ^ bits) :
    readLetter bits (hexLiteral k v) = some (v, []) := by
  have hread : readLetter bits (hexLiteral k v) =
      (readLiteral bits (nextToken (hexLiteral k v)).1).map fun v' => (v', (nextToken (hexLiteral k v)).2) := rfl
  rw [hread, nextToken_hexLiteral, readLiteral_hexLiteral hk hpos hv]
  rfl

theorem readLetter_quoted {c bits : Nat} (hc : c < 2 ^ bits) (hZ : c ≤ 0x5A) :
    readLetter bits ['\'', Char.ofNat c, '\''] = some (c, []) := by
  have hcode : (Char.ofNat c).toNat = c := by
    rw [Char.toNat_ofNat, if_pos (.inl (by omega))]
  simp [readLetter, hcode, hc]

/-! Requests. -/

/-- The two ways a letter is written, by whether its code is 'A' to 'Z' (log entry 11). -/
theorem letterText_cases (charW c : Nat) :
    (c ≤ 0x5A ∧ letterText charW c = ['\'', Char.ofNat c, '\'']) ∨
    letterText charW c = hexLiteral ((charW + 3) / 4) c := by
  unfold letterText
  split
  next hletter => exact .inl ⟨hletter.2, rfl⟩
  next => exact .inr rfl

/-- Neither way begins with a space. -/
theorem skipSpaces_letterText (charW c : Nat) : skipSpaces (letterText charW c) = letterText charW c := by
  obtain ⟨-, h⟩ | h := letterText_cases charW c <;> rw [h] <;> rfl

theorem readLetter_letterText {charW c : Nat} (hpos : 0 < charW) (hc : c < 2 ^ charW) :
    readLetter charW (letterText charW c) = some (c, []) := by
  obtain ⟨hZ, h⟩ | h := letterText_cases charW c <;> rw [h]
  · exact readLetter_quoted hc hZ
  · exact readLetter_hexLiteral (by omega) (by omega) hc

/-- A CAPTURE reads the one token after its mnemonic. -/
theorem readRequest_capture (b : Build) {operand : List Char} {raw : Nat}
    (htoken : nextToken (skipSpaces operand) = (operand, [])) (hread : readLiteral b.wordBits operand = some raw) :
    readRequest b (['C', 'A', 'P', 'T', 'U', 'R', 'E', ' '] ++ operand) = some (.capture raw) := by
  have hname : nextToken (skipSpaces ('C' :: 'A' :: 'P' :: 'T' :: 'U' :: 'R' :: 'E' :: ' ' :: operand)) =
      (['C', 'A', 'P', 'T', 'U', 'R', 'E'], ' ' :: operand) := rfl
  simp [readRequest, hname, skipSpaces_space, htoken, hread, endOfRequest]

/-- A HASEXT reads the letter after its mnemonic. -/
theorem readRequest_hasext (b : Build) {operand : List Char} {c : Nat}
    (hread : readLetter b.charW (skipSpaces operand) = some (c, [])) :
    readRequest b (['H', 'A', 'S', 'E', 'X', 'T', ' '] ++ operand) = some (.hasext c) := by
  have hname : nextToken (skipSpaces ('H' :: 'A' :: 'S' :: 'E' :: 'X' :: 'T' :: ' ' :: operand)) =
      (['H', 'A', 'S', 'E', 'X', 'T'], ' ' :: operand) := rfl
  simp [readRequest, hname, skipSpaces_space, hread, endOfRequest]

/-- The digits a raw value is written in have exactly `W` bits. -/
theorem four_mul_wordBits_div_four (b : Build) : 4 * (b.wordBits / 4) = b.wordBits := by
  cases h : b.width <;> simp [Build.wordBits, h, WordWidth.bits]

/-- Settles O50: the first token is the mnemonic, and the operand after it reads back to its value. -/
theorem textOfARequestReadsBack : Obligations.TextOfARequestReadsBack := by
  intro b i hwf
  cases i with
  | capture raw =>
    have hdigits := four_mul_wordBits_div_four b
    have hW := wordBits_ge b
    exact readRequest_capture b (nextToken_hexLiteral _ raw)
      (readLiteral_hexLiteral (by omega) (by omega) (of_decide_eq_true hwf))
  | bits => rfl
  | width => rfl
  | hasext c =>
    have hletter := readLetter_letterText (lt_of_lt_of_le (by decide) b.charW_ge) (of_decide_eq_true hwf)
    rw [← skipSpaces_letterText] at hletter
    exact readRequest_hasext b hletter

end Sys2Proof.Machine
end

/-! PROOFS. CAPTURE and BITS (spec/40_view_extractor.md R59 to R64): what each leaves in the slot and answers, from
every slot value, and that a captured value comes back from BITS after queries that do not raise. -/

section
namespace Sys2Proof.Machine

/-! One request, by the slot it finds. -/

/-- A raw value on its own lines always fits (spec/20_memory.md R34). -/
theorem wf_capture_word {b : Build} (raw : Word b.wordBits) : (Instr.capture raw.toNat).wf b = true :=
  decide_eq_true raw.isLt

/-- A halted block answers every request FATAL and keeps its slot (spec/60_exceptions.md R81). -/
theorem exec_of_halted {s : State} {i : Instr} (hv : s.view = .halted) (hwf : i.wf s.build = true) :
    exec i s = .next { s with rsp := some .fatal } := by
  have hanswer : refStep s.view i = (s.view, .fatal) := by rw [hv]; rfl
  rw [exec_eq_refNext hwf, refNext, hanswer]

/-- A query without a view is refused NO_VIEW and writes no slot (spec/60_exceptions.md R80). -/
theorem exec_query_of_noView {s : State} {i : Instr} (hq : i.op.isQuery = true) (hwf : i.wf s.build = true)
    (hv : s.view = .empty ∨ s.view = .absent) : exec i s = .next { s with rsp := some .noView } := by
  rw [exec_eq_refNext hwf, refNext, refStep_of_noView hq hv]

/-- BITS on a view returns it (spec/40_view_extractor.md R63). -/
theorem exec_bits_of_present {s : State} {bits : Word s.build.wordBits} (hv : s.view = .present bits) :
    exec .bits s = .next { s with rsp := some (.ok bits) } :=
  congrArg Host.Outcome.next (serveQuery_of_present hv _)

/-- A capture is the same from every slot that is not HALTED, and 0 means "absent" (spec/40_view_extractor.md R59,
R62). -/
theorem exec_capture_of_not_halted {s : State} (hv : s.view ≠ .halted) (raw : Word s.build.wordBits) :
    exec (.capture raw.toNat) s = .next (if raw = 0 then { s with view := .absent, rsp := some (.ok 0) }
      else { s with view := .present raw, rsp := some (.ok 1) }) := by
  split
  next hraw =>
    rw [hraw, exec_eq_refNext (wf_capture_word 0), refNext, refStep_capture hv]
    simp
  next hraw => exact exec_capture_of_ne_zero hv hraw

/-! A capture, queries, and BITS, in the host's order. -/

/-- A step that takes the canonical word of a request runs that request (spec/30_encoding.md R49). -/
theorem step_of_encoded_request {s : State} {i : Instr} {rest : List (HostEvent s.build.reqBits)}
    (hwf : i.wf s.build = true) (hev : s.events = .request (encode s.build i) :: rest) :
    step s = exec i { s with events := rest } := by
  rw [step_of_request hev, decodeOfEncodeIsTheRequest s.build i hwf]

/-- BITS returns the view after any queries that do not raise: each leaves the slot to the next. -/
theorem run_queries_then_bits {s : State} {raw : Word s.build.wordBits} {queries : List Instr}
    {rest : List (HostEvent s.build.reqBits)} (hv : s.view = .present raw)
    (hqueries : ∀ i ∈ queries, i.wf s.build = true ∧ i.op.isQuery = true ∧ (i = .width → fieldValue raw ≠ 0))
    (hev : s.events = (queries ++ [Instr.bits]).map (fun i => .request (encode s.build i)) ++ rest) :
    run (queries.length + 1) s = .next { s with rsp := some (.ok raw), events := rest } := by
  induction queries generalizing s with
  | nil =>
    have hstep := (step_of_encoded_request rfl hev).trans (exec_bits_of_present hv)
    exact run_succ_of_step hstep 0
  | cons i is ih =>
    obtain ⟨⟨hwf, hq, hfield⟩, his⟩ := List.forall_mem_cons.1 hqueries
    have hstep := step_of_encoded_request hwf hev
    obtain ⟨r, hexec⟩ := exec_query_of_not_raising
      (s := { s with events := (is ++ [Instr.bits]).map (fun i => .request (encode s.build i)) ++ rest }) hwf hq
      fun bits hbits => View.present.inj (hv.symm.trans hbits) ▸ hfield
    rw [List.length_cons, run_succ_of_step (hstep.trans hexec)]
    exact ih hv his rfl

/-- Settles O14: the capture fills the slot, and BITS returns it after the queries. -/
theorem capturedBitsRoundTrip : Obligations.CapturedBitsRoundTrip := by
  intro s raw between rest hv hraw hbetween hev
  have hstep := step_of_encoded_request (wf_capture_word raw) hev
  have hexec := exec_capture_of_ne_zero
    (s := { s with events := (between ++ [Instr.bits]).map (fun i => .request (encode s.build i)) ++ rest }) hv hraw
  rw [run_succ_of_step (hstep.trans hexec)]
  exact run_queries_then_bits rfl hbetween rfl

/-! CAPTURE and BITS from every slot value. -/

/-- Settles O12: by the slot value, of which only HALTED matters, and by whether the raw value is 0. -/
theorem captureRecordsTheRawValue : Obligations.CaptureRecordsTheRawValue := by
  refine fun s raw => ⟨?_, fun hv t ht => ?_, fun q hop => by rw [decodeWord, hop]; rfl⟩
  · cases hv : s.view with
    | halted => rw [exec_of_halted hv (wf_capture_word raw), hv]
    | empty => exact exec_capture_of_not_halted (by simp [hv]) raw
    | absent => exact exec_capture_of_not_halted (by simp [hv]) raw
    | present bits => exact exec_capture_of_not_halted (by simp [hv]) raw
  · rw [exec_capture_of_not_halted hv] at ht
    cases ht
    split
    next hraw => simp [hraw]
    next hraw => simpa using hraw

/-- Settles O13: by the slot value; an OK answer is the payload, which the invariant keeps nonzero. -/
theorem bitsReturnsTheView : Obligations.BitsReturnsTheView := by
  refine fun s => ⟨?_, fun hinv t d ht hrsp => (okDataByOperation s t .bits d hinv ht hrsp).1,
    fun q hop => by rw [decodeWord, hop]; rfl⟩
  cases hv : s.view with
  | halted => rw [exec_of_halted hv rfl, hv]
  | empty => rw [exec_query_of_noView rfl rfl (.inl hv), hv]
  | absent => rw [exec_query_of_noView rfl rfl (.inr hv), hv]
  | present bits => rw [exec_bits_of_present hv, hv]

end Sys2Proof.Machine
end

/-! PROOFS. WIDTH (spec/41_width_decoder.md R65 to R68): what it does on a view, by the value of the width field, and
how that value is read off the payload: its top hexadecimal digit, its two top bits, its size. -/

section
namespace Sys2Proof.Machine

/-! The width field of a build's payload. -/

theorem two_le_wordBits (b : Build) : 2 ≤ b.wordBits := le_trans (by decide) (wordBits_ge b)

/-- The field is the upper half of the top hexadecimal digit (spec/41_width_decoder.md R67). -/
theorem fieldValue_eq_topHexDigit_div_four {n : Nat} (hn : 4 ≤ n) (bits : Word n) :
    fieldValue bits = bits.toNat / 2 ^ (n - 4) / 4 := by
  have hpow : 2 ^ (n - 4) * 4 = 2 ^ (n - 2) := by
    rw [show n - 2 = n - 4 + 2 by omega, Nat.pow_add]
  rw [Nat.div_div_eq_div_mul, hpow, fieldValue]

/-- Two words with the same two top bits have the same field (spec/41_width_decoder.md R66). -/
theorem fieldValue_congr_top_two_bits {n : Nat} {x y : Word n} (h1 : x.getLsbD (n - 1) = y.getLsbD (n - 1))
    (h2 : x.getLsbD (n - 2) = y.getLsbD (n - 2)) : fieldValue x = fieldValue y := by
  refine fieldValue_congr fun k hk => ?_
  obtain rfl | rfl | hout : k = n - 2 ∨ k = n - 1 ∨ n ≤ k := by omega
  · exact h2
  · exact h1
  · rw [BitVec.getLsbD_of_ge x k hout, BitVec.getLsbD_of_ge y k hout]

/-- The field is 0 on the low quarter of the values (spec/41_width_decoder.md R68). -/
theorem fieldValue_eq_zero_iff_lt {n : Nat} (bits : Word n) : fieldValue bits = 0 ↔ bits.toNat < 2 ^ (n - 2) :=
  Nat.div_eq_zero_iff_lt (Nat.two_pow_pos _)

/-! WIDTH on a view. -/

/-- A zero field halts the block (spec/41_width_decoder.md R65). -/
theorem exec_width_of_field_zero {s : State} {bits : Word s.build.wordBits} (hv : s.view = .present bits)
    (hfield : fieldValue bits = 0) : exec .width s = .next { s with view := .halted, rsp := some .fatal } := by
  have hanswer : refStep s.view .width = (.halted, .fatal) := by rw [hv]; exact if_pos hfield
  rw [exec_eq_refNext rfl, refNext, hanswer]

/-- A nonzero field is the answer, and the view stays (spec/41_width_decoder.md R65). -/
theorem exec_width_of_field_ne_zero {s : State} {bits : Word s.build.wordBits} (hv : s.view = .present bits)
    (hfield : fieldValue bits ≠ 0) :
    exec .width s = .next { s with rsp := some (.ok (BitVec.ofNat _ (fieldValue bits))) } := by
  have hanswer : refStep s.view .width = (s.view, .ok (BitVec.ofNat _ (fieldValue bits))) := by
    rw [hv]; exact if_neg hfield
  rw [exec_eq_refNext rfl, refNext, hanswer]

/-- WIDTH on a view raises `fatal` exactly on a zero field, and `present` is its opposite (spec/10_state.md R15). -/
theorem outputs_after_width {s t : State} {bits : Word s.build.wordBits} (hv : s.view = .present bits)
    (ht : exec .width s = .next t) :
    (t.fatalOut = true ↔ fieldValue bits = 0) ∧ t.presentOut = !t.fatalOut := by
  by_cases hfield : fieldValue bits = 0
  · rw [exec_width_of_field_zero hv hfield] at ht
    cases ht
    simp [hfield]
  · rw [exec_width_of_field_ne_zero hv hfield] at ht
    cases ht
    simp [hfield, hv]

/-- Settles O17: the digit is a hexadecimal digit since the field is below 4, and its range fixes the field. -/
theorem widthByTopHexDigit : Obligations.WidthByTopHexDigit := by
  intro s bits digit hv hdigit
  have hdiv : fieldValue bits = digit / 4 := by
    rw [hdigit]
    exact fieldValue_eq_topHexDigit_div_four (le_trans (by decide) (wordBits_ge s.build)) bits
  have hlt : fieldValue bits < 4 := fieldValue_lt_four (two_le_wordBits s.build) bits
  have hclass : ∀ k ≠ 0, fieldValue bits = k → exec .width s = .next { s with rsp := some (.ok (BitVec.ofNat _ k)) } :=
    fun k hk hfield => hfield ▸ exec_width_of_field_ne_zero hv (hfield ▸ hk)
  refine ⟨by omega, fun _ => exec_width_of_field_zero hv (by omega), fun _ _ => ?_, fun _ _ => ?_, fun _ => ?_⟩
  · exact hclass 1 (by decide) (by omega)
  · exact hclass 2 (by decide) (by omega)
  · exact hclass 3 (by decide) (by omega)

/-- Settles O18: the two payloads have the same field, which alone decides the case and the answer. -/
theorem widthReadsOnlyTheTopTwoBits : Obligations.WidthReadsOnlyTheTopTwoBits := by
  intro s x y h1 h2
  have hxy : fieldValue x = fieldValue y := fieldValue_congr_top_two_bits h1 h2
  by_cases hx : fieldValue x = 0
  · exact .inr ⟨hx, exec_width_of_field_zero (s := { s with view := .present x }) rfl hx,
      exec_width_of_field_zero (s := { s with view := .present y }) rfl (hxy ▸ hx)⟩
  · refine .inl ⟨hx, exec_width_of_field_ne_zero (s := { s with view := .present x }) rfl hx, ?_⟩
    rw [hxy] at hx ⊢
    exact exec_width_of_field_ne_zero (s := { s with view := .present y }) rfl hx

/-- Settles O20: the capture leaves a view of the value, and the values with field 0 are those below `2^(W-2)`. -/
theorem fatalValuesAreTheLowQuarter : Obligations.FatalValuesAreTheLowQuarter := by
  intro s raw hv hraw
  have hpos : raw.toNat ≠ 0 := fun h0 => hraw (BitVec.eq_of_toNat_eq h0)
  have hwidth := exec_eq_refNext (s := { s with view := .present raw, rsp := some (.ok 1) }) (i := .width) rfl
  refine ⟨_, _, exec_capture_of_ne_zero hv hraw, rfl, hwidth, ?_⟩
  calc _ ↔ fieldValue raw = 0 := (outputs_after_width rfl hwidth).1
    _ ↔ raw.toNat < 2 ^ (s.build.wordBits - 2) := fieldValue_eq_zero_iff_lt raw
    _ ↔ 1 ≤ raw.toNat ∧ raw.toNat ≤ 2 ^ (s.build.wordBits - 2) - 1 := by omega

/-- Settles O15: by the slot value, and on a view by the field. -/
theorem widthDecodesTheField : Obligations.WidthDecodesTheField := by
  refine fun s => ⟨?_, fun bits _ => fieldValue_lt_four (two_le_wordBits s.build) bits,
    fun bits t hv ht => outputs_after_width hv ht, fun q hop => by rw [decodeWord, hop]; rfl⟩
  cases hv : s.view with
  | halted => rw [exec_of_halted hv rfl, hv]
  | empty => rw [exec_query_of_noView rfl rfl (.inl hv), hv]
  | absent => rw [exec_query_of_noView rfl rfl (.inr hv), hv]
  | present bits =>
    by_cases hfield : fieldValue bits = 0
    · exact (exec_width_of_field_zero hv hfield).trans (congrArg _ (if_pos hfield).symm)
    · rw [exec_width_of_field_ne_zero hv hfield, hv]
      exact congrArg _ (if_neg hfield).symm

end Sys2Proof.Machine
end

/-! PROOFS. HASEXT (spec/42_bit_test_mux.md R70 to R74): what it answers on a view, by the rank and mask of the code and
by the code itself, and that the two forms of the masked test read the letter's own bit. -/

section
namespace Sys2Proof.Machine

/-! The masked test. -/

/-- The other form of the masked test, with the mask in place of zero (spec/42_bit_test_mux.md R71); it needs the mask's
bit to lie in the word. -/
theorem and_extensionMask_eq_self_iff {n k : Nat} (hk : k < n) (bits : Word n) :
    bits &&& extensionMask n k = extensionMask n k ↔ bits.getLsbD k = true := by
  rw [extensionMask_eq_twoPow, BitVec.and_twoPow]
  cases h : bits.getLsbD k
  · have hne : 0#n ≠ BitVec.twoPow n k := fun h0 => by
      simpa [hk] using congrArg (fun w => BitVec.getLsbD w k) h0
    simpa using hne
  · simp

/-- The multiplexer's answer by the rank and the mask, as R70 gives them. -/
theorem boolData_hasExtension {n m : Nat} (bits : Word n) (c : CharCode m) :
    boolData n (hasExtension bits c) = if (letterRank c).toNat > 25 then 0
      else if bits &&& (BitVec.ofNat n 1 <<< (letterRank c).toNat) ≠ 0 then 1 else 0 := by
  by_cases hout : (letterRank c).toNat > 25
  · rw [if_pos hout, hasExtension_out_of_range _ _ (decide_eq_false (not_le_of_gt hout)), boolData_false]
  · rw [if_neg hout, hasExtension_in_range _ _ (decide_eq_true (le_of_not_gt hout)), boolData_eq_ite,
      extensionMask_eq_twoPow, BitVec.twoPow_eq]
    simp only [decide_eq_true_eq]

/-! HASEXT by the slot it finds. -/

/-- A code on its own lines always fits (spec/70_reset_and_hazards.md R102). -/
theorem wf_hasext_word {b : Build} (c : CharCode b.charW) : (Instr.hasext c.toNat).wf b = true :=
  decide_eq_true c.isLt

/-- On a view a letter is answered by its own bit (spec/42_bit_test_mux.md R71). -/
theorem exec_hasext_of_letter {s : State} {bits : Word s.build.wordBits} {c : CharCode s.build.charW}
    (hv : s.view = .present bits) (hA : 0x41 ≤ c.toNat) (hZ : c.toNat ≤ 0x5A) :
    exec (.hasext c.toNat) s =
      .next { s with rsp := some (.ok (if bits.getLsbD (c.toNat - 0x41) then 1 else 0)) } := by
  have hanswer : refStep s.view (.hasext c.toNat) =
      (s.view, .ok (if bits.getLsbD (c.toNat - 0x41) then 1 else 0)) := by
    simp only [hv, refStep, hA, hZ, true_and, BitVec.testBit_toNat]
  rw [exec_eq_refNext (wf_hasext_word c), refNext, hanswer]

/-- On a view a code that is no letter is answered 0 (spec/42_bit_test_mux.md R71, R73). -/
theorem exec_hasext_of_nonLetter {s : State} {bits : Word s.build.wordBits} {c : CharCode s.build.charW}
    (hv : s.view = .present bits) (hc : ¬(0x41 ≤ c.toNat ∧ c.toNat ≤ 0x5A)) :
    exec (.hasext c.toNat) s = .next { s with rsp := some (.ok 0) } := by
  have hanswer : refStep s.view (.hasext c.toNat) = (s.view, .ok 0) := by
    rw [hv, refStep, if_neg fun h => hc ⟨h.1, h.2.1⟩]
  rw [exec_eq_refNext (wf_hasext_word c), refNext, hanswer]

/-! HASEXT from every slot value, and as a multiplexer over the bitmap. -/

/-- Settles O22: by the slot value, and on a view by the rank and the mask. -/
theorem hasextTestsTheMaskedBit : Obligations.HasextTestsTheMaskedBit := by
  intro s c rank hrank
  refine ⟨?_, fun q hop => by rw [decodeWord, hop]; rfl⟩
  cases hv : s.view with
  | halted => rw [exec_of_halted hv (wf_hasext_word c), hv]
  | empty => rw [exec_query_of_noView rfl (wf_hasext_word c) (.inl hv), hv]
  | absent => rw [exec_query_of_noView rfl (wf_hasext_word c) (.inr hv), hv]
  | present bits =>
    rw [execHasext_word, serveQuery_of_present hv, boolData_hasExtension,
      letterRank_toNat_eq_mod s.build.charW_ge, ← hrank, respond, hv]

/-- Settles O23: by whether the code is a letter; a letter's bit lies in the word, which has at least 32. -/
theorem hasextIsAMultiplexer : Obligations.HasextIsAMultiplexer := by
  refine fun s bits c hv => ⟨fun hA hZ => ⟨exec_hasext_of_letter hv hA hZ, ?_, ?_⟩, exec_hasext_of_nonLetter hv⟩
  · rw [and_extensionMask_ne_zero_iff, BitVec.testBit_toNat]
  · have hW := wordBits_ge s.build
    exact and_extensionMask_eq_self_iff (by omega) bits

/-- Settles O24: a letter is answered by a bit and every other code by 0; the ranks of R73 by evaluation. -/
theorem everyNonLetterIsFalse : Obligations.EveryNonLetterIsFalse := by
  refine ⟨fun s bits c hv => ?_, by decide⟩
  by_cases hc : 0x41 ≤ c.toNat ∧ c.toNat ≤ 0x5A
  · exact ⟨_, exec_hasext_of_letter hv hc.1 hc.2, (ite_eq_or_eq ..).symm, fun hout => by omega⟩
  · exact ⟨0, exec_hasext_of_nonLetter hv hc, .inl rfl, fun _ => rfl⟩

/-- Settles O27: a letter's answer is its own bit, in which the payloads agree, and no other code reads any. -/
theorem hasextReadsOnlyItsOwnBit : Obligations.HasextReadsOnlyItsOwnBit := by
  intro s x y c hxy
  by_cases hc : 0x41 ≤ c.toNat ∧ c.toNat ≤ 0x5A
  · obtain ⟨hA, hZ⟩ := hc
    have hbit : x.getLsbD (c.toNat - 0x41) = y.getLsbD (c.toNat - 0x41) := hxy _ (by omega) (by omega)
    refine ⟨_, exec_hasext_of_letter (s := { s with view := .present x }) rfl hA hZ, ?_⟩
    rw [hbit]
    exact exec_hasext_of_letter (s := { s with view := .present y }) rfl hA hZ
  · exact ⟨0, exec_hasext_of_nonLetter (s := { s with view := .present x }) rfl hc,
      exec_hasext_of_nonLetter (s := { s with view := .present y }) rfl hc⟩

end Sys2Proof.Machine
end

/-! PROOFS. Answers, refusals and the fatal (spec/60_exceptions.md): the first check that applies to a request, the one
request that halts a block, what a halted block does until reset, and the blocks of a platform. -/

section
namespace Sys2Proof.Machine

/-! The first check that applies (spec/60_exceptions.md R84). -/

theorem isQuery_of_ne_capture {o : Op} (h : o ≠ .capture) : o.isQuery = true := by
  cases o with
  | capture => exact absurd rfl h
  | bits => rfl
  | width => rfl
  | hasext => rfl

theorem exists_raw_of_op {i : Instr} (h : i.op = .capture) : ∃ raw, i = .capture raw := by
  cases i with
  | capture raw => exact ⟨raw, rfl⟩
  | bits => cases h
  | width => cases h
  | hasext c => cases h

theorem eq_width_of_op {i : Instr} (h : i.op = .width) : i = .width := by
  cases i with
  | width => rfl
  | capture raw => cases h
  | bits => cases h
  | hasext c => cases h

/-- WIDTH on a zero field is the entry of the fatal (spec/60_exceptions.md R79). -/
theorem refStep_width_of_field_zero {n : Nat} {bits : Word n} (hfield : fieldValue bits = 0) :
    refStep (.present bits) .width = (.halted, .fatal) := if_pos hfield

/-- From every slot value but HALTED a capture succeeds (spec/40_view_extractor.md R62). -/
theorem status_capture {n : Nat} {v : View n} (hv : v ≠ .halted) (raw : Nat) :
    (refStep v (.capture raw)).2.status = .ok := by
  rw [refStep_capture hv]
  split <;> rfl

/-- On a view a query is answered OK, unless it is a WIDTH on a zero field. -/
theorem status_query_of_present {n : Nat} {bits : Word n} {i : Instr} (hq : i.op.isQuery = true)
    (hraise : ¬(i.op = .width ∧ fieldValue bits = 0)) : (refStep (.present bits) i).2.status = .ok := by
  cases i with
  | capture raw => cases hq
  | bits => rfl
  | hasext c => rfl
  | width => rw [refStep, if_neg fun hfield => hraise ⟨rfl, hfield⟩]; rfl

/-- The checks in the order of R84, each taken where no earlier one applies. -/
theorem refStep_status {n : Nat} (v : View n) (i : Instr) :
    (refStep v i).2.status =
      if v = .halted then .fatal
      else if i.op = .capture then .ok
      else if v = .empty ∨ v = .absent then .noView
      else if i.op = .width ∧ ∃ bits, v = .present bits ∧ fieldValue bits = 0 then .fatal
      else .ok := by
  split_ifs with hhalted hcapture hnone hraise
  · rw [hhalted]; rfl
  · obtain ⟨raw, rfl⟩ := exists_raw_of_op hcapture
    exact status_capture hhalted raw
  · rw [refStep_of_noView (isQuery_of_ne_capture hcapture) hnone]; rfl
  · obtain ⟨hop, bits, rfl, hfield⟩ := hraise
    rw [eq_width_of_op hop, refStep_width_of_field_zero hfield]
    rfl
  · cases v with
    | present bits =>
      exact status_query_of_present (isQuery_of_ne_capture hcapture) fun h => hraise ⟨h.1, bits, rfl, h.2⟩
    | empty => exact absurd (.inl rfl) hnone
    | absent => exact absurd (.inr rfl) hnone
    | halted => exact absurd rfl hhalted

/-- Settles O28: the answer is that of the reference equations, whose status is `refStep_status`; the status bits of a
response word are one of the three codes. -/
theorem answerStatusByFirstCheck : Obligations.AnswerStatusByFirstCheck := by
  refine ⟨fun s i hwf => ⟨_, _, exec_eq_refNext hwf, refStep_status s.view i⟩, rfl, rfl, rfl, fun n r => ?_⟩
  rw [extractLsb'_status_word]
  cases r.status <;> decide

/-! Queries without a view (spec/60_exceptions.md R80). -/

/-- A request is served alike whatever the response port holds, one that does not fit included. -/
theorem exec_of_other_rsp (s : State) (i : Instr) (x : Option (Response s.build.wordBits)) :
    exec i { s with rsp := x } = exec i s := by
  cases hwf : i.wf s.build with
  | true => exact (exec_eq_refNext (s := { s with rsp := x }) hwf).trans (exec_eq_refNext hwf).symm
  | false => exact (exec_of_not_wf (s := { s with rsp := x }) hwf).trans (exec_of_not_wf hwf).symm

/-- Settles O29: the refused query writes the response port only, which no request reads; the status of a capture's
answer is FATAL or OK. -/
theorem queryWithoutViewIsRefused : Obligations.QueryWithoutViewIsRefused := by
  refine ⟨fun s i hv hwf hq => ⟨exec_query_of_noView hq hwf hv, fun j => exec_of_other_rsp s j _⟩,
    fun s t raw h hrsp => ?_⟩
  obtain ⟨-, rfl⟩ := exec_eq_next_iff.1 h
  have hanswer : (refStep s.view (.capture raw)).2 = .noView := Option.some.inj hrsp
  by_cases hv : s.view = .halted
  · rw [hv] at hanswer; cases hanswer
  · have hok := status_capture hv raw
    rw [hanswer] at hok
    cases hok

/-! The fatal (spec/60_exceptions.md R78, R79). -/

/-- Settles O30: WIDTH on a zero field halts the block, and a halted block keeps its slot and answers FATAL, as the
port then already holds. -/
theorem fatalEntryHaltsTheBlock : Obligations.FatalEntryHaltsTheBlock := by
  intro s bits hv hfield
  exact ⟨_, exec_width_of_field_zero hv hfield, rfl, rfl, rfl, fun i hwf =>
    exec_of_halted (s := { s with view := .halted, rsp := some .fatal }) rfl hwf⟩

theorem fatalOut_iff (s : State) : s.fatalOut = true ↔ s.view = .halted := (outputsFollowTheSlot s).2.1

/-- Of all that a request can do to the slot, only WIDTH on a zero field halts the block. -/
theorem refNext_fatalOut_iff {s : State} {i : Instr} (hv : s.view ≠ .halted) (hwf : i.wf s.build = true) :
    (refNext s i).fatalOut = true ↔ i = .width ∧ ∃ bits, s.view = .present bits ∧ fieldValue bits = 0 := by
  rw [fatalOut_iff]
  constructor
  · intro (hhalted : (refStep s.view i).1 = .halted)
    obtain ⟨r, -, heq⟩ | ⟨-, -, heq⟩ | ⟨-, raw, -, -, heq⟩ | ⟨hi, bits, hbits, hfield, -⟩ :=
      refStep_cases s.view hwf
    · rw [heq] at hhalted; exact absurd hhalted hv
    · rw [heq] at hhalted; cases hhalted
    · rw [heq] at hhalted; cases hhalted
    · exact ⟨hi, bits, hbits, hfield⟩
  · rintro ⟨rfl, bits, hbits, hfield⟩
    have hanswer : refStep s.view .width = (.halted, .fatal) := by
      rw [hbits, refStep_width_of_field_zero hfield]
    rw [refNext, hanswer]

/-- Settles O31: the fatal is raised as `refNext_fatalOut_iff` says; its cause has one value, and what it leaves in the
slot and on the port names no payload. -/
theorem onlyAZeroFieldRaisesTheFatal : Obligations.OnlyAZeroFieldRaisesTheFatal := by
  refine ⟨fun s t i hv h => ?_, fun cause => ?_, fun s x y hx hy => ?_⟩
  · obtain ⟨hwf, rfl⟩ := exec_eq_next_iff.1 h
    exact refNext_fatalOut_iff hv hwf
  · cases cause
    exact ⟨rfl, rfl⟩
  · exact (exec_width_of_field_zero (s := { s with view := .present x }) rfl hx).trans
      (exec_width_of_field_zero (s := { s with view := .present y }) rfl hy).symm

/-- Settles O39: waiting keeps the slot, reset empties it, and a request is left to `refNext_fatalOut_iff`. -/
theorem safeStepsAreThoseThatDoNotRaise : Obligations.SafeStepsAreThoseThatDoNotRaise := by
  intro s t hsafe h
  obtain ⟨hev, rfl⟩ | ⟨rest, hev, rfl⟩ | ⟨q, rest, hev, rfl⟩ := step_cases h
  · exact iff_of_true hsafe fun ⟨q, rest, hq, _⟩ => by simp [hev] at hq
  · exact iff_of_true rfl fun ⟨q, rest, hq, _⟩ => by simp [hev] at hq
  · have hv : s.view ≠ .halted := fun hhalted => by simp [State.safe, hhalted] at hsafe
    have hraise := refNext_fatalOut_iff (s := { s with events := rest }) hv (decodeWord_wf s.build q)
    rw [State.safe, ← Bool.not_eq_true, hraise]
    simp [hev]

/-! A halted block (spec/60_exceptions.md R81, R85). -/

/-- Settles O32: the reference equations give a halted slot the same answer to every request. -/
theorem haltedAnswersFatal : Obligations.HaltedAnswersFatal :=
  fun _ _ hv hwf => exec_of_halted hv hwf

/-- Settles O3: by the step that finds no event. -/
theorem idleStepKeepsTheSlot : Obligations.IdleStepKeepsTheSlot :=
  fun _ hev => step_of_nothing hev

/-- A step that takes a request of a halted block answers it FATAL, whatever the word. -/
theorem step_request_of_halted {s : State} {q : Word s.build.reqBits} {rest : List (HostEvent s.build.reqBits)}
    (hv : s.view = .halted) (hev : s.events = .request q :: rest) :
    step s = .next { s with rsp := some .fatal, events := rest } :=
  (step_of_request hev).trans (exec_of_halted (s := { s with events := rest }) hv (decodeWord_wf s.build q))

/-- A halted block stays halted over any run without a reset: FATAL while requests are left, then no answer. -/
theorem run_of_halted (n : Nat) {s : State} (hv : s.view = .halted) (hreset : .reset ∉ s.events) :
    run n s = .next { s with
      rsp := if n = 0 then s.rsp else if n ≤ s.events.length then some .fatal else none
      events := s.events.drop n } := by
  induction n generalizing s with
  | zero => rfl
  | succ n ih =>
    match hev : s.events with
    | [] =>
      rw [run_succ_of_step (step_of_nothing hev), ih (s := idle s) hv hreset]
      simp [idle, hev]
    | .reset :: rest => simp [hev] at hreset
    | .request q :: rest =>
      rw [run_succ_of_step (step_request_of_halted hv hev),
        ih (s := { s with rsp := some .fatal, events := rest }) hv fun hmem => hreset (by simp [hev, hmem])]
      cases n <;> simp

/-- Settles O33: `run_of_halted` for runs, and `step_cases` for one step. -/
theorem onlyResetLeavesHalted : Obligations.OnlyResetLeavesHalted := by
  refine ⟨fun s n hv hreset => run_of_halted n hv hreset, fun s t hv h => ?_⟩
  obtain ⟨hev, rfl⟩ | ⟨rest, hev, rfl⟩ | ⟨q, rest, hev, -⟩ := step_cases h
  · exact .inl ⟨hv, by simp [hev]⟩
  · exact .inr ⟨rfl, rest, hev⟩
  · cases h.symm.trans (step_request_of_halted hv hev)
    exact .inl ⟨hv, by simp [hev]⟩

/-! Blocks side by side (spec/60_exceptions.md R92). -/

/-- Settles O49: the block's own step always completes and its result is put in its place among the blocks. -/
theorem platformBlocksAreIndependent : Obligations.PlatformBlocksAreIndependent := by
  refine fun n p => ⟨p.n_ge, fun k => ?_⟩
  obtain ⟨v, x, hstep⟩ := everyStepContinues p.blocks[k]
  refine ⟨_, Platform.stepBlock_of_step hstep, ?_, fun j hj => ?_⟩
  · simpa using hstep
  · have hne : k.val ≠ j.val := fun h => hj (Fin.ext h.symm)
    simp [hne]

end Sys2Proof.Machine
end

/-! PROOFS. Reset and the hazards around the view (spec/70_reset_and_hazards.md R93 to R101): the reset event, runs from
reset, and views that hold a value of another register width. -/

section
namespace Sys2Proof.Machine

/-! A value of another width on the lines of a view (spec/70_reset_and_hazards.md R101). -/

/-- The width field of a value cut or zero-extended to `m` bits is the value's own two bits at `m - 2`. -/
theorem fieldValue_setWidth {m n : Nat} (hm : 2 ≤ m) (v : Word n) :
    fieldValue (v.setWidth m) = v.toNat / 2 ^ (m - 2) % 4 := by
  have hpow : 2 ^ m = 2 ^ (m - 2) * 4 := by
    rw [← Nat.pow_add _ _ 2, Nat.sub_add_cancel hm]
  rw [fieldValue, BitVec.toNat_setWidth, hpow, Nat.mod_mul_right_div_self]

theorem fieldValue_setWidth_of_narrower {m n : Nat} (hm : 2 ≤ m) (hn : n ≤ m - 2) (v : Word n) :
    fieldValue (v.setWidth m) = 0 := by
  have hlt : v.toNat < 2 ^ (m - 2) := lt_of_lt_of_le v.isLt (Nat.pow_le_pow_right (by decide) hn)
  rw [fieldValue_setWidth hm, Nat.div_eq_of_lt hlt]

/-- On a view the `k`-th letter from 'A' is answered by bit `k`; its code fits `CHAR_W` lines, of which there are at
least 7. -/
theorem exec_hasext_of_rank {s : State} {bits : Word s.build.wordBits} {k : Nat} (hv : s.view = .present bits)
    (hk : k ≤ 25) :
    exec (.hasext (0x41 + k)) s = .next { s with rsp := some (.ok (if bits.getLsbD k then 1 else 0)) } := by
  have hpow : 2 ^ 7 ≤ 2 ^ s.build.charW := Nat.pow_le_pow_right (by decide) s.build.charW_ge
  have hcode : (BitVec.ofNat s.build.charW (0x41 + k)).toNat = 0x41 + k := Nat.mod_eq_of_lt (by omega)
  have hexec := exec_hasext_of_letter (c := BitVec.ofNat s.build.charW (0x41 + k)) hv (by omega) (by omega)
  rwa [hcode, Nat.add_sub_cancel_left] at hexec

/-- Settles O21: the width field is the value's two bits at `W - 2`, which a narrower value does not reach; the bits of
the letters lie in the word, which has at least 32. -/
theorem valuesOfAnotherWidth : Obligations.ValuesOfAnotherWidth := by
  refine ⟨fun s n v hn hv => ⟨?_, fun k hk => ?_⟩, fun s n v _ hv hfield => ?_⟩
  · exact exec_width_of_field_zero hv (fieldValue_setWidth_of_narrower (two_le_wordBits s.build) hn v)
  · have hW := wordBits_ge s.build
    have hbit : (v.setWidth s.build.wordBits).getLsbD k = v.getLsbD k := by
      simp [show k < s.build.wordBits by omega]
    rw [exec_hasext_of_rank hv hk, hbit]
  · rw [← fieldValue_setWidth (two_le_wordBits s.build)] at hfield ⊢
    exact exec_width_of_field_ne_zero hv hfield

/-! Steps that take the canonical word of a request, by the slot they find. -/

theorem step_encoded_capture {s : State} {raw : Word s.build.wordBits} {rest : List (HostEvent s.build.reqBits)}
    (hv : s.view ≠ .halted) (hraw : raw ≠ 0)
    (hev : s.events = .request (encode s.build (.capture raw.toNat)) :: rest) :
    step s = .next { s with view := .present raw, rsp := some (.ok 1), events := rest } :=
  (step_of_encoded_request (wf_capture_word raw) hev).trans
    (exec_capture_of_ne_zero (s := { s with events := rest }) hv hraw)

theorem step_encoded_width_of_field_zero {s : State} {bits : Word s.build.wordBits}
    {rest : List (HostEvent s.build.reqBits)} (hv : s.view = .present bits) (hfield : fieldValue bits = 0)
    (hev : s.events = .request (encode s.build .width) :: rest) :
    step s = .next { s with view := .halted, rsp := some .fatal, events := rest } :=
  (step_of_encoded_request (i := .width) rfl hev).trans
    (exec_width_of_field_zero (s := { s with events := rest }) hv hfield)

theorem step_encoded_query_of_noView {s : State} {i : Instr} {rest : List (HostEvent s.build.reqBits)}
    (hv : s.view = .empty ∨ s.view = .absent) (hwf : i.wf s.build = true) (hq : i.op.isQuery = true)
    (hev : s.events = .request (encode s.build i) :: rest) :
    step s = .next { s with rsp := some .noView, events := rest } :=
  (step_of_encoded_request hwf hev).trans (exec_query_of_noView (s := { s with events := rest }) hq hwf hv)

/-! The reset event, and the same value again (spec/70_reset_and_hazards.md R93, R97). -/

/-- Settles O2: by the step that takes the reset event. -/
theorem resetEventRestartsTheBlock : Obligations.ResetEventRestartsTheBlock :=
  fun _ _ hev => ⟨_, step_of_reset hev, rfl, rfl, rfl⟩

/-- Reset and the capture of a nonzero value fill the slot, whatever it held. -/
theorem run_reset_then_capture {s : State} {raw : Word s.build.wordBits} {rest : List (HostEvent s.build.reqBits)}
    (hraw : raw ≠ 0) (hev : s.events = .reset :: .request (encode s.build (.capture raw.toNat)) :: rest) :
    run 2 s = .next { s with view := .present raw, rsp := some (.ok 1), events := rest } := by
  rw [run_succ_of_step (step_of_reset hev)]
  exact run_succ_of_step (step_encoded_capture (s := applyReset { s with events := _ }) (by simp) hraw rfl) 0

/-- Settles O34: reset and the capture leave a view of the value, and WIDTH on its zero field halts the block. -/
theorem sameValueHaltsAgain : Obligations.SameValueHaltsAgain := by
  intro s raw rest _ hraw hfield hev
  have hcaptured := run_reset_then_capture hraw hev
  have hwidth := step_encoded_width_of_field_zero
    (s := { s with view := .present raw, rsp := some (.ok 1), events := .request (encode s.build .width) :: rest })
    rfl hfield rfl
  exact ⟨hcaptured, (run_add hcaptured 1).trans (run_succ_of_step hwidth 0)⟩

/-! Queries before the first capture (spec/70_reset_and_hazards.md R95, R99). -/

/-- Without a view any number of queries is refused NO_VIEW, each leaving the slot to the next. -/
theorem run_queries_of_noView {s : State} {queries : List Instr} {rest : List (HostEvent s.build.reqBits)}
    (hne : queries ≠ []) (hv : s.view = .empty ∨ s.view = .absent)
    (hqueries : ∀ i ∈ queries, i.wf s.build = true ∧ i.op.isQuery = true)
    (hev : s.events = queries.map (fun i => .request (encode s.build i)) ++ rest) :
    run queries.length s = .next { s with rsp := some .noView, events := rest } := by
  induction queries, hne using List.recNeNil generalizing s with
  | singleton i =>
    obtain ⟨hwf, hq⟩ := hqueries i (List.mem_singleton_self i)
    exact run_succ_of_step (step_encoded_query_of_noView hv hwf hq hev) 0
  | cons i is _ ih =>
    obtain ⟨⟨hwf, hq⟩, his⟩ := List.forall_mem_cons.1 hqueries
    rw [List.length_cons, run_succ_of_step (step_encoded_query_of_noView hv hwf hq hev)]
    exact ih (s := { s with rsp := some .noView, events := _ }) hv his rfl

/-- After the refused queries the capture of a nonzero value is served, and BITS returns it. -/
theorem run_queries_then_capture_then_bits {s : State} {queries : List Instr} {raw : Word s.build.wordBits}
    (hne : queries ≠ []) (hv : s.view = .empty) (hraw : raw ≠ 0)
    (hqueries : ∀ i ∈ queries, i.wf s.build = true ∧ i.op.isQuery = true)
    (hev : s.events =
      (queries ++ [Instr.capture raw.toNat, Instr.bits]).map (fun i => .request (encode s.build i))) :
    run (queries.length + 2) s = .next { s with view := .present raw, rsp := some (.ok raw), events := [] } := by
  rw [List.map_append] at hev
  rw [run_add (run_queries_of_noView hne (.inl hv) hqueries hev)]
  exact capturedBitsRoundTrip { s with rsp := some .noView, events := _ } raw [] [] (by simp [hv]) hraw nofun rfl

/-- Settles O35: the slot after reset is EMPTY, and the queries leave it so. -/
theorem queriesWaitForACapture : Obligations.QueriesWaitForACapture := by
  intro b queries raw hne hqueries hraw
  exact ⟨fun rest => run_queries_of_noView hne (.inl rfl) hqueries rfl,
    run_queries_then_capture_then_bits (s := { State.resetOf b with events := _ }) hne rfl hraw hqueries rfl⟩

end Sys2Proof.Machine
end

/-! PROOFS. The equations that close spec/95_test_vectors.md: each request refines 1 to 6, and reachability of a view is
as 7 says. -/

section
namespace Sys2Proof.Machine

/-- Settles O36: request by request, in `exec_eq_refNext`. -/
theorem execFollowsTheEquations : Obligations.ExecFollowsTheEquations :=
  fun _ _ => exec_eq_refNext

/-- What every step keeps, every run keeps. -/
theorem run_keeps {P : State → Prop} (hstep : ∀ s t, P s → step s = .next t → P t) {n : Nat} {s t : State} (hs : P s)
    (h : run n s = .next t) : P t := by
  induction n generalizing s with
  | zero =>
    rw [run_zero] at h
    cases h
    exact hs
  | succ n ih =>
    obtain ⟨v, x, hnext⟩ := everyStepContinues s
    rw [run_succ_of_step hnext] at h
    exact ih (hstep _ _ hs hnext) h

/-- Whatever the host does after reset, the payload stays nonzero and the answer goes with the slot. -/
theorem run_from_reset_inv {b : Build} {events : List (HostEvent b.reqBits)} {n : Nat} {t : State}
    (h : run n { State.resetOf b with events := events } = .next t) : t.Inv :=
  run_keeps (s := { State.resetOf b with events := events }) stepKeepsTheInvariant (resetMeetsTheInvariant b) h

/-- Settles O48: the invariant of the runs from reset excludes zero, and one capture reaches any other value. -/
theorem presentIsReachableIffNonzero : Obligations.PresentIsReachableIffNonzero := by
  intro b bits
  constructor
  · rintro ⟨events, rest, n, x, hrun⟩
    obtain ⟨hpayload, -⟩ := run_from_reset_inv hrun
    exact hpayload
  · intro hbits
    have hcapture := step_encoded_capture (rest := []) (raw := bits)
      (s := { State.resetOf b with events := [.request (encode b (.capture bits.toNat))] }) nofun hbits rfl
    exact ⟨_, _, 1, _, run_succ_of_step hcapture 0⟩

end Sys2Proof.Machine
end
